-- ==== Sys2Proof/Word.lean ====
section
/-! DEFINITION. The byte and the register index: the two word types of the CORE (00_scope.md R4, R5). -/

namespace Sys2Proof

/-- Every register, memory cell, FL, pc and operand is a byte (R5, R22). -/
abbrev Byte := BitVec 8

/-- An index of the register file: "8 slots indexed 0–7" (R10). -/
abbrev RegIdx := Fin 8

end Sys2Proof
end

