-- ==== Sys2Proof/Config.lean ====
section
/-! DEFINITION. The fixed parameters of the CORE (00_scope.md R4). The spec leaves no value free
(92_eei_decisions.md: "No point is left `OPEN` with a free parameter except IMAGE"), so no constant here is opaque. -/

namespace Sys2Proof.Config

/-- MEM_SIZE (R4, R18). -/
abbrev memSize : Nat := 256

/-- SP_INDEX: the register that is the stack pointer (R11). UNVERIFIED, unsafe: the spec's decision D1 (log 4). -/
abbrev spIndex : RegIdx := 7

/-- LINK_INDEX: the register CALL and RET clobber (R12). -/
abbrev linkIndex : RegIdx := 4

/-- SP_RESET (R4, R11, R21). -/
abbrev spReset : Byte := 244#8

/-- PC_RESET: the entry point (R4, R14, R21). -/
abbrev pcReset : Byte := 0#8

/-- FL_RESET (R4, R21). UNVERIFIED, unsafe: the spec's decision D3 (log 6). -/
abbrev flReset : Byte := 0#8

/-- What every other register and every memory cell that the image does not cover holds after reset (R4, R21). -/
abbrev zeroReset : Byte := 0#8

end Sys2Proof.Config
end

