-- ==== Sys2Proof/Machine/State.lean ====
section
/-! DEFINITION. The whole state of the CORE (10_state.md R10 to R20), its reset value (R21), and the reasons a step
or the Loader can stop. -/

namespace Sys2Proof.Machine

/-- The four faults with the information each records (60_exceptions.md R130). A `raise` puts one into STATUS. -/
inductive FaultCause where
  /-- Code 1: the byte fetched at pc is no opcode; records it (R131). -/
  | unknownOpcode (ir : Byte)
  /-- Code 2: MOD by a register that holds 0; records the pc of the MOD (R132). -/
  | divisionByZero (pc : Byte)
  /-- Code 3: a computed address left 0..255; records the integer (R133). -/
  | addressOutOfRange (v : Int)
  /-- Code 4: a register operand above 7; records the operand byte (R134). -/
  | registerOutOfRange (operand : Byte)
  deriving DecidableEq, Repr

/-- STATUS, the run status (R17). -/
inductive Status where
  /-- A step is taken only in this one. -/
  | running
  /-- Written by HLT alone (R70). -/
  | halted
  /-- Written by a `raise` alone (R136). -/
  | faulted (cause : FaultCause)
  deriving DecidableEq, Repr

/-- MEM as (address, byte) pairs, in the canonical form of `Memory.wf`; an address not listed reads 0, the reset
contents the spec gives (R21). -/
abbrev Memory := List Host.Cell

/-- The canonical form: addresses strictly rising and inside the 256 cells (R18), no listed byte 0. -/
abbrev Memory.wf (m : Memory) : Prop :=
  m.Pairwise (fun c d => c.1 < d.1) ∧ ∀ c ∈ m, c.1 < Config.memSize ∧ c.2 ≠ Config.zeroReset

/-- The six pieces of state (R10 to R19); "Nothing else is state" (R20). -/
structure State where
  /-- x[0] to x[7] (R10); x[7] is SP (R11), x[4] the link register (R12). -/
  regs : Vector Byte 8
  /-- The program counter (R14). -/
  pc : Byte
  /-- The flags register: E = FL[0], G = FL[1], L = FL[2] (R15). -/
  fl : Byte
  /-- The run status (R17). -/
  status : Status
  /-- The unified memory (R18). -/
  mem : Memory
  /-- The bytes PRN has emitted, oldest first (R19). -/
  out : List Byte
  deriving DecidableEq, Repr

/-- Why a stopped CORE takes no step (R168: "Halted and Faulted states have no successor"). Raised by `step` alone;
safe: nothing is claimed to happen (log 1). The faults of R130 themselves are no stop of the model: each is a next
state whose STATUS is Faulted. -/
inductive Fault where
  /-- Raised by `step` where STATUS is Halted. Safe. -/
  | noStepHalted
  /-- Raised by `step` where STATUS is Faulted. Safe. -/
  | noStepFaulted (cause : FaultCause)
  deriving DecidableEq, Repr

/-- What the model refuses. -/
inductive Refusal where
  /-- An instruction without a meaning, by its mnemonic: raised by no arm of this model. Safe. -/
  | notModelled (mnemonic : String)
  /-- Raised by `hostReset`, never by a step, for an image over 256 bytes (R161, D14: "the host must refuse it"). Safe. -/
  | imageTooLong (length : Nat)
  deriving DecidableEq, Repr

/-- The machine right after reset with the empty image (R21, R160, R161): x[0..6] = 0, x[7] = 244, pc = 0, FL = 0,
STATUS = Running, MEM all zeros, OUT empty. -/
def State.reset : State where
  regs := (Vector.replicate 8 Config.zeroReset).set Config.spIndex Config.spReset
  pc := Config.pcReset
  fl := Config.flReset
  status := .running
  mem := []
  out := []

end Sys2Proof.Machine
end

