-- ==== Sys2Proof/Machine/Ops.lean ====
section
/-! DEFINITION. The named operations over memory, registers and the other state, taking a fault, and checked
addresses (20_memory.md, 60_exceptions.md). -/

namespace Sys2Proof.Machine

/-- What a step of this machine answers. -/
abbrev Answer := Host.Outcome State Fault Refusal

/-! ### Memory (R31) -/

/-- MemRead: the byte of the first cell listed for `a`, else the reset contents 0 (R21, R31). -/
def Memory.read (m : Memory) (a : Nat) : Byte := (m.lookup a).getD Config.zeroReset

/-- The cells at every address but `a`. -/
def Memory.erase (m : Memory) (a : Nat) : Memory := m.filter (fun c => decide (c.1 ≠ a))

/-- Put a cell before the first one with a greater address. -/
def Memory.insertCell : Memory → Host.Cell → Memory
  | [], c => [c]
  | d :: m, c => if c.1 < d.1 then c :: d :: m else d :: Memory.insertCell m c

/-- MemWrite: "sets MEM[addr] to v and changes no other cell" (R31). A byte equal to what an unlisted address reads
as is not listed. -/
def Memory.write (m : Memory) (a : Nat) (v : Byte) : Memory :=
  if v = Config.zeroReset then m.erase a else (m.erase a).insertCell (a, v)

/-- The bytes stored at consecutive addresses from `base` up, those beyond the 256 cells left out: the array is
never extended (R18, R36). -/
def Memory.writeBytes (m : Memory) (base : Nat) : List Byte → Memory
  | [] => m
  | v :: vs =>
    if base < Config.memSize then Memory.writeBytes (m.write base v) (base + 1) vs else m

/-! ### Registers, pc, FL, OUT -/

/-- `x[i]` (R10). -/
def State.reg (s : State) (i : RegIdx) : Byte := s.regs[i]

/-- `x[i] <- v` (R10: "No register is hardwired"). -/
def State.setReg (s : State) (i : RegIdx) (v : Byte) : State := { s with regs := s.regs.set i v }

/-- SP, the stack pointer `x[7]` (R11). -/
def State.sp (s : State) : Byte := s.reg Config.spIndex

/-- `pc <- target` (R14). -/
def State.setPc (s : State) (v : Byte) : State := { s with pc := v }

/-- `FL <- v`, the whole byte (R15, R90). -/
def State.setFl (s : State) (v : Byte) : State := { s with fl := v }

/-- `STATUS <- st` (R17). -/
def State.setStatus (s : State) (st : Status) : State := { s with status := st }

/-- `MemRead(a, 1)`; a byte is always inside 0..255 (R31, R36). -/
def State.load (s : State) (a : Byte) : Byte := s.mem.read a.toNat

/-- `MemWrite(a, 1, v)` (R31). -/
def State.store (s : State) (a v : Byte) : State := { s with mem := s.mem.write a.toNat v }

/-- `Out(v)`: append a byte to OUT (R5, R19). -/
def State.emit (s : State) (v : Byte) : State := { s with out := s.out ++ [v] }

/-! ### Taking a fault (R136) -/

/-- `raise F(info)`: STATUS becomes Faulted(F, info) and "no other state changes in that step" (R136). It is given
the state at the START of the step, so no write of the step survives. There is no return from a fault (R137). -/
def raise (s : State) (c : FaultCause) : Answer := .next (s.setStatus (.faulted c))

/-! ### Address computations (R36) -/

/-- `v` itself where 0 ≤ v ≤ 255: no address wraps (R36). -/
def addr? (v : Int) : Option Byte := if 0 ≤ v ∧ v ≤ 255 then some (BitVec.ofInt 8 v) else none

/-- `Addr(v)`: go on with the address, or raise AddressOutOfRange(v) (R36, R133). -/
def withAddr (s : State) (v : Int) (k : Byte → Answer) : Answer :=
  match addr? v with
  | some a => k a
  | none => raise s (.addressOutOfRange v)

/-- `Addr(pc + n)`: the fetch addresses, the fall-through address of an n-byte instruction (R57, R58) and CALL's
return address. -/
def withPcPlus (s : State) (n : Nat) (k : Byte → Answer) : Answer :=
  withAddr s ((s.pc.toNat : Int) + (n : Int)) k

/-! ### The stack (R100, R101) -/

/-- The decremented stack pointer, or AddressOutOfRange(-1) where it is 0 (R100, R133). -/
def withPushSlot (s : State) (k : Byte → Answer) : Answer := withAddr s ((s.sp.toNat : Int) - 1) k

/-- The two writes of a push, in the order written: `x[7] <- sp1`, then `MEM[sp1] <- x[r]`, which sees the first
(R100, D9; log 9). -/
def State.pushReg (s : State) (sp1 : Byte) (r : RegIdx) : State :=
  let s1 := s.setReg Config.spIndex sp1
  s1.store sp1 (s1.reg r)

/-- The value `x[7]` holds after `x[r] <- v`: what a pop increments (R101, D9; log 9). -/
def State.popBase (s : State) (r : RegIdx) : Byte :=
  if r = Config.spIndex then s.load s.sp else s.sp

/-- A pop into `x[r]` (R101): check the incremented stack pointer, then `x[r] <- MEM[x[7]]`, then `x[7] <- sp1`. -/
def withPop (s : State) (r : RegIdx) (k : State → Answer) : Answer :=
  withAddr s (((s.popBase r).toNat : Int) + 1) fun sp1 =>
    k ((s.setReg r (s.load s.sp)).setReg Config.spIndex sp1)

end Sys2Proof.Machine
end

