-- ==== Sys2Proof/Machine/Operands.lean ====
section
/-! DEFINITION. The operand forms (30_encoding.md R53, R54): a register index, two register indices, and LDI's
immediate, which is the operand byte itself. "There are no other operand forms" (R54). -/

namespace Sys2Proof.Machine

/-- The register a whole operand byte names, none above 7; never masked to three bits (R54, D6). -/
def regOperand? (a : Byte) : Option RegIdx := if h : a.toNat < 8 then some ⟨a.toNat, h⟩ else none

/-- Go on with the register that operand `a` names, or raise RegisterOutOfRange(a) (R54, R134). -/
def withReg (s : State) (a : Byte) (k : RegIdx → Answer) : Answer :=
  match regOperand? a with
  | some r => k r
  | none => raise s (.registerOutOfRange a)

/-- Two register operands; "the first operand is checked first" (R134). -/
def withRegs (s : State) (a b : Byte) (k : RegIdx → RegIdx → Answer) : Answer :=
  withReg s a fun ra => withReg s b fun rb => k ra rb

/-- LDI's immediate: the whole byte "used as it stands" (R54). -/
def immediate (b : Byte) : Byte := b

end Sys2Proof.Machine
end

