-- ==== Sys2Proof/Machine/Flags.lean ====
section
/-! DEFINITION. FL: its bits, the value CMP writes, and the one flag JEQ and JNE read (10_state.md R15, R16;
41_alu.md R90). The positions are the spec's decision D2 (log 5). -/

namespace Sys2Proof.Machine

/-- E (EQUAL), at FL[0] (R15). UNVERIFIED: D2, log 5. -/
def flagE : Byte := 0b00000001#8

/-- G (GREATER), at FL[1] (R15). UNVERIFIED: D2, log 5. -/
def flagG : Byte := 0b00000010#8

/-- L (LESS), at FL[2] (R15). UNVERIFIED: D2, log 5. -/
def flagL : Byte := 0b00000100#8

/-- What CMP writes to the whole of FL: the order of two bytes as unsigned integers (R90, conflict C1). -/
def compareFlags (va vb : Byte) : Byte :=
  if va.toNat = vb.toNat then flagE else if vb.toNat < va.toNat then flagG else flagL

/-- E = FL[0], the one flag an instruction reads (R16, R113, R114). -/
def equalFlag (fl : Byte) : Bool := decide (fl &&& flagE ≠ 0#8)

end Sys2Proof.Machine
end

