-- ==== Sys2Proof/Machine/Alu.lean ====
section
/-! DEFINITION. The ALU and its ten instructions (41_alu.md). Results are computed exactly on natural numbers and
narrowed once (R5, R91): no flag, no carry, no signed reading. -/

namespace Sys2Proof.Machine

/-! ### The pure operations (R81 to R89, R91) -/

/-- (va + vb) mod 256 (R81). -/
def aluAdd (va vb : Byte) : Byte := BitVec.ofNat 8 (va.toNat + vb.toNat)

/-- (va · vb) mod 256 (R82). -/
def aluMul (va vb : Byte) : Byte := BitVec.ofNat 8 (va.toNat * vb.toNat)

/-- va mod vb, for vb ≠ 0 (R83). -/
def aluMod (va vb : Byte) : Byte := BitVec.ofNat 8 (va.toNat % vb.toNat)

/-- va & vb (R84). -/
def aluAnd (va vb : Byte) : Byte := va &&& vb

/-- va | vb (R85). -/
def aluOr (va vb : Byte) : Byte := va ||| vb

/-- va ^ vb (R86). -/
def aluXor (va vb : Byte) : Byte := va ^^^ vb

/-- 255 − v (R87). -/
def aluNot (v : Byte) : Byte := BitVec.ofNat 8 (255 - v.toNat)

/-- (va · 2^vb) mod 256, the amount being the whole byte (R88, D11; log 11). -/
def aluShl (va vb : Byte) : Byte := BitVec.ofNat 8 (va.toNat * 2 ^ vb.toNat)

/-- floor(va / 2^vb), the amount being the whole byte (R89, D11; log 11). -/
def aluShr (va vb : Byte) : Byte := BitVec.ofNat 8 (va.toNat / 2 ^ vb.toNat)

/-! ### The frame of the ten (R80) -/

/-- A two-operand instruction that writes `x[a]`: both sources are read before the write (R80). -/
def aluRegReg (f : Byte → Byte → Byte) (a b : Byte) (s : State) : Answer :=
  withRegs s a b fun ra rb => withPcPlus s 3 fun next =>
    .next ((s.setReg ra (f (s.reg ra) (s.reg rb))).setPc next)

/-- ADD a, b (R81). -/
def execAdd (a b : Byte) (s : State) : Answer := aluRegReg aluAdd a b s

/-- MUL a, b (R82). -/
def execMul (a b : Byte) (s : State) : Answer := aluRegReg aluMul a b s

/-- MOD a, b (R83): the divisor is checked after both indices and before the fall-through (R135). -/
def execMod (a b : Byte) (s : State) : Answer :=
  withRegs s a b fun ra rb =>
    if s.reg rb = 0#8 then raise s (.divisionByZero s.pc)
    else withPcPlus s 3 fun next =>
      .next ((s.setReg ra (aluMod (s.reg ra) (s.reg rb))).setPc next)

/-- AND a, b (R84). -/
def execAnd (a b : Byte) (s : State) : Answer := aluRegReg aluAnd a b s

/-- OR a, b (R85). -/
def execOr (a b : Byte) (s : State) : Answer := aluRegReg aluOr a b s

/-- XOR a, b (R86). -/
def execXor (a b : Byte) (s : State) : Answer := aluRegReg aluXor a b s

/-- NOT a (R87): one operand, two bytes long (U10). -/
def execNot (a : Byte) (s : State) : Answer :=
  withReg s a fun ra => withPcPlus s 2 fun next =>
    .next ((s.setReg ra (aluNot (s.reg ra))).setPc next)

/-- SHL a, b (R88). -/
def execShl (a b : Byte) (s : State) : Answer := aluRegReg aluShl a b s

/-- SHR a, b (R89). -/
def execShr (a b : Byte) (s : State) : Answer := aluRegReg aluShr a b s

/-- CMP a, b (R90): FL in place of the register write. -/
def execCmp (a b : Byte) (s : State) : Answer :=
  withRegs s a b fun ra rb => withPcPlus s 3 fun next =>
    .next ((s.setFl (compareFlags (s.reg ra) (s.reg rb))).setPc next)

end Sys2Proof.Machine
end

