-- ==== Sys2Proof/Machine/Branch.lean ====
section
/-! DEFINITION. CALL, RET, JMP, JEQ and JNE (43_subroutine_branch.md). Each writes pc itself, so no fall-through
advance follows (30_encoding.md R59); whether it does is decided by the instruction and E, never by comparing pc. -/

namespace Sys2Proof.Machine

/-- CALL a (R110): the return address into `x[4]`, then a push of `x[4]`, then pc from `x[a]`, read last (D9; log 9). -/
def execCall (a : Byte) (s : State) : Answer :=
  withReg s a fun ra => withPcPlus s 2 fun ret => withPushSlot s fun sp1 =>
    let s1 := (s.setReg Config.linkIndex ret).pushReg sp1 Config.linkIndex
    .next (s1.setPc (s1.reg ra))

/-- RET (R111): a pop into `x[4]`, then pc from `x[4]`. -/
def execRet (s : State) : Answer :=
  withPop s Config.linkIndex fun s1 => .next (s1.setPc (s1.reg Config.linkIndex))

/-- JMP a (R112). -/
def execJmp (a : Byte) (s : State) : Answer :=
  withReg s a fun ra => .next (s.setPc (s.reg ra))

/-- A conditional branch: the operand is checked whether or not it is taken (R134, D6). -/
def branchIf (taken : Bool) (a : Byte) (s : State) : Answer :=
  withReg s a fun ra =>
    if taken then .next (s.setPc (s.reg ra))
    else withPcPlus s 2 fun next => .next (s.setPc next)

/-- JEQ a (R113): taken where E is set. -/
def execJeq (a : Byte) (s : State) : Answer := branchIf (equalFlag s.fl) a s

/-- JNE a (R114): taken where E is clear. -/
def execJne (a : Byte) (s : State) : Answer := branchIf (!equalFlag s.fl) a s

end Sys2Proof.Machine
end

