-- ==== Sys2Proof/Machine/HaltLoadPrint.lean ====
section
/-! DEFINITION. HLT, LDI and PRN (40_halt_load_print.md). -/

namespace Sys2Proof.Machine

/-- HLT (R70): `STATUS <- Halted`, `pc <- pc + 1` (D10; log 10). -/
def execHlt (s : State) : Answer :=
  withPcPlus s 1 fun next => .next ((s.setStatus .halted).setPc next)

/-- LDI a, imm (R71). -/
def execLdi (a imm : Byte) (s : State) : Answer :=
  withReg s a fun ra => withPcPlus s 3 fun next =>
    .next ((s.setReg ra (immediate imm)).setPc next)

/-- PRN a (R72). -/
def execPrn (a : Byte) (s : State) : Answer :=
  withReg s a fun ra => withPcPlus s 2 fun next =>
    .next ((s.emit (s.reg ra)).setPc next)

end Sys2Proof.Machine
end

