-- ==== Sys2Proof/Machine/Stack.lean ====
section
/-! DEFINITION. PUSH and POP (42_stack.md). -/

namespace Sys2Proof.Machine

/-- PUSH a (R100). -/
def execPush (a : Byte) (s : State) : Answer :=
  withReg s a fun ra => withPushSlot s fun sp1 => withPcPlus s 2 fun next =>
    .next ((s.pushReg sp1 ra).setPc next)

/-- POP a (R101). -/
def execPop (a : Byte) (s : State) : Answer :=
  withReg s a fun ra => withPop s ra fun s1 => withPcPlus s 2 fun next =>
    .next (s1.setPc next)

end Sys2Proof.Machine
end

