-- ==== Sys2Proof/Syntax.lean ====
section
/-! DEFINITION. The instructions: one constructor per row of spec/opcode_table.json, in the table's order.
`a` and `b` are the first and second operand BYTES as fetched (R50, R54): a register operand above 7 is an
instruction the CORE decodes and then faults on (R54, R134), so the whole byte is kept. -/

namespace Sys2Proof

/-- The 20 instructions of 30_encoding.md R55. -/
inductive Instr where
  /-- HLT (R70). -/
  | hlt
  /-- LDI a, imm (R71). -/
  | ldi (a imm : Byte)
  /-- PRN a (R72). -/
  | prn (a : Byte)
  /-- ADD a, b (R81). -/
  | add (a b : Byte)
  /-- MUL a, b (R82). -/
  | mul (a b : Byte)
  /-- MOD a, b (R83). -/
  | mod (a b : Byte)
  /-- AND a, b (R84). -/
  | and (a b : Byte)
  /-- OR a, b (R85). -/
  | or (a b : Byte)
  /-- XOR a, b (R86). -/
  | xor (a b : Byte)
  /-- NOT a (R87). -/
  | not (a : Byte)
  /-- SHL a, b (R88). -/
  | shl (a b : Byte)
  /-- SHR a, b (R89). -/
  | shr (a b : Byte)
  /-- CMP a, b (R90). -/
  | cmp (a b : Byte)
  /-- PUSH a (R100). -/
  | push (a : Byte)
  /-- POP a (R101). -/
  | pop (a : Byte)
  /-- CALL a (R110). -/
  | call (a : Byte)
  /-- RET (R111). -/
  | ret
  /-- JMP a (R112). -/
  | jmp (a : Byte)
  /-- JEQ a (R113). -/
  | jeq (a : Byte)
  /-- JNE a (R114). -/
  | jne (a : Byte)
  deriving DecidableEq, Repr

end Sys2Proof
end

