-- ==== Sys2Proof/WellFormed.lean ====
section
/-! DEFINITION. Well-formed instructions: every register operand names a register (30_encoding.md R54).
An ill-formed instruction still decodes and has a meaning: it raises RegisterOutOfRange (R134; log 12). -/

namespace Sys2Proof

/-- A register-index operand "is legal when it is 0..7" (R54). -/
def legalRegOperand (a : Byte) : Bool := decide (a.toNat < 8)

/-- Every register operand is legal; LDI's immediate "has no illegal values" (R54, R56). -/
def Instr.WellFormed : Instr → Bool
  | .hlt => true
  | .ldi a _ => legalRegOperand a
  | .prn a => legalRegOperand a
  | .add a b => legalRegOperand a && legalRegOperand b
  | .mul a b => legalRegOperand a && legalRegOperand b
  | .mod a b => legalRegOperand a && legalRegOperand b
  | .and a b => legalRegOperand a && legalRegOperand b
  | .or a b => legalRegOperand a && legalRegOperand b
  | .xor a b => legalRegOperand a && legalRegOperand b
  | .not a => legalRegOperand a
  | .shl a b => legalRegOperand a && legalRegOperand b
  | .shr a b => legalRegOperand a && legalRegOperand b
  | .cmp a b => legalRegOperand a && legalRegOperand b
  | .push a => legalRegOperand a
  | .pop a => legalRegOperand a
  | .call a => legalRegOperand a
  | .ret => true
  | .jmp a => legalRegOperand a
  | .jeq a => legalRegOperand a
  | .jne a => legalRegOperand a

end Sys2Proof
end

