-- ==== Sys2Proof/Decode.lean ====
section
/-! DEFINITION. The decoder, total on any bytes, and after it the encoder (30_encoding.md R50 to R57). -/

namespace Sys2Proof

/-- Why a list of bytes is no instruction. -/
inductive DecodeError where
  /-- Byte 0 is none of the 20 opcodes (R56): the step raises UnknownOpcode (R57 step 3). Safe. -/
  | unknownOpcode (ir : Byte)
  /-- The list ends before the opcode or before its last operand. Safe: a step always fetches three bytes, so no
  step meets this (log 13). -/
  | tooShort
  deriving DecidableEq, Repr

/-- N, the operand count: `ir[7:6]`, "a pure function of ir[7:6] alone" (R52). No opcode has 0b11 there (D7). -/
def operandCount (ir : Byte) : Nat := (ir.extractLsb' 6 2).toNat

/-- The dispatch table: the 20 opcodes of R55, each with the instruction it makes of its operand bytes, in the
table's order. The operand that an instruction does not have is ignored (R57 step 4). -/
def dispatchTable : List (Byte × (Byte → Byte → Instr)) :=
  [(0x01#8, fun _ _ => .hlt),
   (0x82#8, fun a b => .ldi a b),
   (0x47#8, fun a _ => .prn a),
   (0xA0#8, fun a b => .add a b),
   (0xA2#8, fun a b => .mul a b),
   (0xA4#8, fun a b => .mod a b),
   (0xA8#8, fun a b => .and a b),
   (0xAA#8, fun a b => .or a b),
   (0xAB#8, fun a b => .xor a b),
   (0x69#8, fun a _ => .not a)] ++
  [(0xAC#8, fun a b => .shl a b),
   (0xAD#8, fun a b => .shr a b),
   (0xA7#8, fun a b => .cmp a b),
   (0x45#8, fun a _ => .push a),
   (0x46#8, fun a _ => .pop a),
   (0x50#8, fun a _ => .call a),
   (0x11#8, fun _ _ => .ret),
   (0x54#8, fun a _ => .jmp a),
   (0x55#8, fun a _ => .jeq a),
   (0x56#8, fun a _ => .jne a)]

/-- "The instruction is identified by comparing the whole byte `ir` with the 20 values" (R51, D19). -/
def dispatch (ir : Byte) : Option (Byte → Byte → Instr) := dispatchTable.lookup ir

/-- Whether `ir` is one of the 20 opcodes of R55. -/
def isOpcode (ir : Byte) : Bool := (dispatch ir).isSome

/-- Decoding (R57 steps 2 to 4): the opcode is looked up, `ir[7:6]` says how many operand bytes follow it, and the
rest of the list is given back. -/
def decode : List Byte → Except DecodeError (Instr × List Byte)
  | [] => .error .tooShort
  | ir :: rest =>
    match dispatch ir with
    | none => .error (.unknownOpcode ir)
    | some build =>
      match operandCount ir, rest with
      | 0, rest => .ok (build 0#8 0#8, rest)
      | 1, a :: rest => .ok (build a 0#8, rest)
      | 2, a :: b :: rest => .ok (build a b, rest)
      | _, _ => .error .tooShort

/-- The instruction's bytes in address order: opcode, first operand, second operand (R32, R53, R55). -/
def encode : Instr → List Byte
  | .hlt => [0x01#8]
  | .ldi a imm => [0x82#8, a, imm]
  | .prn a => [0x47#8, a]
  | .add a b => [0xA0#8, a, b]
  | .mul a b => [0xA2#8, a, b]
  | .mod a b => [0xA4#8, a, b]
  | .and a b => [0xA8#8, a, b]
  | .or a b => [0xAA#8, a, b]
  | .xor a b => [0xAB#8, a, b]
  | .not a => [0x69#8, a]
  | .shl a b => [0xAC#8, a, b]
  | .shr a b => [0xAD#8, a, b]
  | .cmp a b => [0xA7#8, a, b]
  | .push a => [0x45#8, a]
  | .pop a => [0x46#8, a]
  | .call a => [0x50#8, a]
  | .ret => [0x11#8]
  | .jmp a => [0x54#8, a]
  | .jeq a => [0x55#8, a]
  | .jne a => [0x56#8, a]

/-- The three bytes of a table word: byte k is bits 8k+7..8k of `w`, the bits from `nbits` up being 0. -/
def tableWordBytes (nbits w : Nat) : List Byte :=
  let v := w % 2 ^ nbits
  [BitVec.ofNat 8 v, BitVec.ofNat 8 (v / 256), BitVec.ofNat 8 (v / 65536)]

/-- The instruction the decoder reads from a table word laid out in memory order. -/
def decodeTableWord (nbits w : Nat) : Option Instr :=
  match decode (tableWordBytes nbits w) with
  | .ok (i, _) => some i
  | .error _ => none

end Sys2Proof
end

