-- ==== Sys2Proof/Machine/Fetch.lean ====
section
/-! DEFINITION. The parts of the instruction cycle around exec (30_encoding.md R57): the status gate, the fetch of
three bytes, and the dispatch of an unknown opcode. -/

namespace Sys2Proof.Machine

/-- "A step is taken only when STATUS = Running" (R17); Halted and Faulted have no successor (R168; log 1). -/
def whenRunning (s : State) (k : Answer) : Answer :=
  match s.status with
  | .running => k
  | .halted => .fault .noStepHalted
  | .faulted c => .fault (.noStepFaulted c)

/-- The byte at `pc + n`, n ≤ 2, as the fetch reads it. -/
def State.byteAtPc (s : State) (n : Nat) : Byte := s.mem.read (s.pc.toNat + n)

/-- Step 1: three bytes are fetched whatever the opcode is, each address through `Addr` (R42, R57, C2). -/
def withFetched (s : State) (k : Byte → Byte → Byte → Answer) : Answer :=
  let ir := s.load s.pc
  withPcPlus s 1 fun a1 =>
    let op1 := s.load a1
    withPcPlus s 2 fun a2 =>
      let op2 := s.load a2
      k ir op1 op2

/-- Steps 1 to 3: the decoded instruction, or UnknownOpcode(ir) where byte 0 is no opcode (R56, R57, R131). -/
def withInstr (s : State) (k : Instr → Answer) : Answer :=
  withFetched s fun ir op1 op2 =>
    match decode [ir, op1, op2] with
    | .ok (i, _) => k i
    | .error _ => raise s (.unknownOpcode ir)

end Sys2Proof.Machine
end

