-- ==== Sys2Proof/Machine/Step.lean ====
section
/-! DEFINITION. One step of the CORE (00_scope.md R6, 30_encoding.md R57), and the placing of one instruction where
the next step fetches. -/

namespace Sys2Proof.Machine

/-- One pass of the instruction cycle (R6, R57). -/
def step (s : State) : Host.Outcome State Fault Refusal :=
  whenRunning s (withInstr s fun i => exec i s)

/-- `s` with the three bytes of a table word at pc, pc + 1 and pc + 2, where the next step fetches them; it stands for
the Loader's work (R161; log 2). Nothing but MEM changes. -/
def State.withFetchWord (s : State) (nbits w : Nat) : State :=
  { s with mem := s.mem.writeBytes s.pc.toNat (tableWordBytes nbits w) }

end Sys2Proof.Machine
end

