-- ==== Sys2Proof/Machine/HostSide.lean ====
section
/-! DEFINITION. The host's side of the CORE (70_reset_and_hazards.md R160, R161, R163): reset with an image, the
debug view, the fault codes and the rendering of OUT. None of it is part of a step. -/

namespace Sys2Proof.Machine

/-- The state after reset and load of an image (R21, R160, R161). -/
def resetWith (image : List Byte) : State :=
  { State.reset with mem := Memory.writeBytes [] 0 image }

/-- RESET + IMAGE, applied to a CORE in any state: "nothing survives a reset" (R160, D15); an image over 256 bytes is
refused (R161, D14). -/
def hostReset (image : List Byte) (_ : State) : Answer :=
  if image.length ≤ Config.memSize then .next (resetWith image) else .refused (.imageTooLong image.length)

/-- The fault codes, labels only (R130). -/
def FaultCause.code : FaultCause → Nat
  | .unknownOpcode _ => 1
  | .divisionByZero _ => 2
  | .addressOutOfRange _ => 3
  | .registerOutOfRange _ => 4

/-- MEM[pc], MEM[pc + 1], MEM[pc + 2], "those of the three addresses that are ≤ 255" (R141). -/
def State.bytesAtPc (s : State) : List Byte :=
  ([0, 1, 2].filter (fun n => decide (s.pc.toNat + n < Config.memSize))).map (fun n => s.mem.read (s.pc.toNat + n))

/-- The trace line's contents: pc, the bytes at pc, and the eight registers (R141). Read-only. -/
def State.debugView (s : State) : Byte × List Byte × Vector Byte 8 := (s.pc, s.bytesAtPc, s.regs)

/-- The host's rendering of OUT: the decimal numeral of each byte's unsigned value, one a line, oldest first (R72,
D13). The spec leaves leading zeros, padding and the line terminator open (R72, N15). DESIGN CHOICE, safe (log 16): a
numeral has no leading zeros and no padding, and the lines are a list, with no terminator chosen. -/
def renderOut (out : List Byte) : List String := out.map (fun v => Nat.repr v.toNat)

end Sys2Proof.Machine
end

