-- ==== Sys2Proof/Safety.lean ====
section
/-! DEFINITION. The vocabulary of claims: a faulted answer, the invariant of the machine, the read/write table of the
registers, the order of the faults, and a run under a step budget. -/

namespace Sys2Proof.Machine

/-! ### Answers -/

/-- The next state of an answer, if it is one. -/
def nextState? : Answer → Option State
  | .next t => some t
  | .fault _ => none
  | .refused _ => none

/-- An answer with its next state changed. -/
def mapNext (f : State → State) : Answer → Answer
  | .next t => .next (f t)
  | .fault r => .fault r
  | .refused r => .refused r

/-- The state a fault leaves: only STATUS differs (R136). -/
def faultedWith (s : State) (c : FaultCause) : State := { s with status := .faulted c }

/-! ### The host's rendering of OUT -/

/-- `line` is a decimal numeral of the byte's unsigned value (R72): one or more digits with that value. Leading zeros,
which R72 and N15 leave open, are allowed here. -/
def IsNumeralOf (line : String) (v : Byte) : Prop :=
  line.toList ≠ [] ∧ (∀ c ∈ line.toList, c.isDigit) ∧
  line.toList.foldl (fun n c => 10 * n + (c.toNat - '0'.toNat)) 0 = v.toNat

/-! ### Operands and the fetched instruction -/

/-- The operand byte that names a register (R54). -/
def regByte (r : RegIdx) : Byte := BitVec.ofNat 8 r.val

/-- The 20 opcodes, written out from R55. -/
def opcodes : List Byte :=
  [0x01#8, 0x82#8, 0x47#8, 0xA0#8, 0xA2#8, 0xA4#8, 0xA8#8, 0xAA#8, 0xAB#8, 0x69#8,
   0xAC#8, 0xAD#8, 0xA7#8, 0x45#8, 0x46#8, 0x50#8, 0x11#8, 0x54#8, 0x55#8, 0x56#8]

/-- `i` is the instruction at pc: pc ≤ 253, so that all three bytes exist, and they decode to `i` (R57). -/
def State.Fetches (s : State) (i : Instr) : Prop :=
  s.pc.toNat ≤ 253 ∧ ∃ rest, decode [s.byteAtPc 0, s.byteAtPc 1, s.byteAtPc 2] = .ok (i, rest)

/-- The register operands of an instruction, in operand order (R53). -/
def Instr.regOperands : Instr → List Byte
  | .hlt => []
  | .ldi a _ => [a]
  | .prn a => [a]
  | .add a b => [a, b]
  | .mul a b => [a, b]
  | .mod a b => [a, b]
  | .and a b => [a, b]
  | .or a b => [a, b]
  | .xor a b => [a, b]
  | .not a => [a]
  | .shl a b => [a, b]
  | .shr a b => [a, b]
  | .cmp a b => [a, b]
  | .push a => [a]
  | .pop a => [a]
  | .call a => [a]
  | .ret => []
  | .jmp a => [a]
  | .jeq a => [a]
  | .jne a => [a]

/-- The first register operand above 7 (R134: "the first operand is checked first"). -/
def Instr.badOperand? (i : Instr) : Option Byte := (Instr.regOperands i).find? (fun a => decide (7 < a.toNat))

/-- What a rule of a two-register ALU instruction says (R80), for every operand byte: its encoding, the two register
faults in order, the fall-through fault at pc = 253, and the result `f (x[a]) (x[b])` in `x[a]` with nothing else but
pc changed. -/
def RegRegRule (op : Byte → Byte → Instr) (opcode : Byte) (f : Byte → Byte → Byte) : Prop :=
  (∀ a b : Byte, encode (op a b) = [opcode, a, b]) ∧
  (∀ (s : State) (a b : Byte), 7 < a.toNat →
    exec (op a b) s = .next (faultedWith s (.registerOutOfRange a))) ∧
  (∀ (s : State) (ra : RegIdx) (b : Byte), 7 < b.toNat →
    exec (op (regByte ra) b) s = .next (faultedWith s (.registerOutOfRange b))) ∧
  (∀ (s : State) (ra rb : RegIdx), s.pc.toNat = 253 →
    exec (op (regByte ra) (regByte rb)) s = .next (faultedWith s (.addressOutOfRange 256))) ∧
  (∀ (s : State) (ra rb : RegIdx), s.pc.toNat ≤ 252 →
    exec (op (regByte ra) (regByte rb)) s =
      .next { s with regs := s.regs.set ra (f (s.reg ra) (s.reg rb)), pc := s.pc + 3#8 })

/-- STATUS is as before, or the instruction faulted and changed nothing but STATUS (R136). -/
def StatusKeptOrFaulted (s t : State) : Prop := t.status = s.status ∨ ∃ c, t = faultedWith s c

/-- Every register but those `p` holds of is unchanged. -/
def RegsKeptBut (p : RegIdx → Prop) (s t : State) : Prop := ∀ r, ¬ p r → t.reg r = s.reg r

/-- Every byte of memory reads as before. -/
def MemKept (s t : State) : Prop := ∀ a, t.mem.read a = s.mem.read a

/-- Where `v` is the address stored to, every other byte reads as before; where it is no address, every byte does. -/
def MemKeptBut (v : Int) (s t : State) : Prop :=
  (∀ a, addr? v = some a → ∀ b, b ≠ a.toNat → t.mem.read b = s.mem.read b) ∧ (addr? v = none → MemKept s t)

/-! ### The registers each instruction reads and writes (R13) -/

/-- Operand `a` names register `r`. -/
def names (a : Byte) (r : RegIdx) : Bool := decide (a.toNat = r.val)

/-- The "writes" column of R13. -/
def Instr.writesReg : Instr → RegIdx → Bool
  | .hlt, _ => false
  | .ldi a _, r => names a r
  | .prn _, _ => false
  | .add a _, r => names a r
  | .mul a _, r => names a r
  | .mod a _, r => names a r
  | .and a _, r => names a r
  | .or a _, r => names a r
  | .xor a _, r => names a r
  | .not a, r => names a r
  | .shl a _, r => names a r
  | .shr a _, r => names a r
  | .cmp _ _, _ => false
  | .push _, r => decide (r = 7)
  | .pop a, r => names a r || decide (r = 7)
  | .call _, r => decide (r = 4) || decide (r = 7)
  | .ret, r => decide (r = 4) || decide (r = 7)
  | .jmp _, _ => false
  | .jeq _, _ => false
  | .jne _, _ => false

/-- The "reads" column of R13; JEQ and JNE read x[a] "only when the branch is taken", which FL[0] decides. -/
def Instr.readsReg : Instr → State → RegIdx → Bool
  | .hlt, _, _ => false
  | .ldi _ _, _, _ => false
  | .prn a, _, r => names a r
  | .add a b, _, r => names a r || names b r
  | .mul a b, _, r => names a r || names b r
  | .mod a b, _, r => names a r || names b r
  | .and a b, _, r => names a r || names b r
  | .or a b, _, r => names a r || names b r
  | .xor a b, _, r => names a r || names b r
  | .not a, _, r => names a r
  | .shl a b, _, r => names a r || names b r
  | .shr a b, _, r => names a r || names b r
  | .cmp a b, _, r => names a r || names b r
  | .push a, _, r => names a r || decide (r = 7)
  | .pop _, _, r => decide (r = 7)
  | .call a, _, r => names a r || decide (r = 7)
  | .ret, _, r => decide (r = 7)
  | .jmp a, _, r => names a r
  | .jeq a, s, r => s.fl.getLsbD 0 && names a r
  | .jne a, s, r => !s.fl.getLsbD 0 && names a r

/-! ### The order of the faults (R135) -/

/-- Items 5 of R135: the divisor of MOD, or the stack pointer of PUSH, POP, CALL and RET (R132, R133). -/
def Instr.ownFault? (i : Instr) (s : State) : Option FaultCause :=
  match i with
  | .mod _ b => if (∃ rb : RegIdx, b = regByte rb ∧ s.reg rb = 0#8) then some (.divisionByZero s.pc) else none
  | .push _ => if s.reg 7 = 0#8 then some (.addressOutOfRange (-1)) else none
  | .call _ => if s.reg 7 = 0#8 then some (.addressOutOfRange (-1)) else none
  | .pop a =>
    if a = 7#8 then
      if s.mem.read (s.reg 7).toNat = 255#8 then some (.addressOutOfRange 256) else none
    else if s.reg 7 = 255#8 then some (.addressOutOfRange 256) else none
  | .ret => if s.reg 7 = 255#8 then some (.addressOutOfRange 256) else none
  | .hlt | .ldi _ _ | .prn _ | .add _ _ | .mul _ _ | .and _ _ | .or _ _ | .xor _ _ | .not _ | .shl _ _ | .shr _ _
  | .cmp _ _ | .jmp _ | .jeq _ | .jne _ => none

/-- Item 6 of R135: a 3-byte instruction at pc = 253. -/
def Instr.fallThroughFault? (i : Instr) (s : State) : Option FaultCause :=
  if (encode i).length = 3 ∧ s.pc.toNat = 253 then some (.addressOutOfRange 256) else none

/-- The fault a fetched instruction raises: items 3 to 6 of R135, in that order. -/
def Instr.firstFault? (i : Instr) (s : State) : Option FaultCause :=
  match Instr.badOperand? i with
  | some a => some (.registerOutOfRange a)
  | none => (Instr.ownFault? i s).orElse (fun _ => Instr.fallThroughFault? i s)

/-! ### The invariant of the machine -/

/-- "FL therefore only ever holds 0 (no compare executed since reset), 1, 2 or 4" (R15). -/
def FlLegal (fl : Byte) : Prop := fl = 0#8 ∨ fl = 1#8 ∨ fl = 2#8 ∨ fl = 4#8

/-- What R130 says the information of a fault is, in the state that the fault left (pc at the faulting opcode, memory
unchanged, R136). -/
def CauseLegal (s : State) : FaultCause → Prop
  | .unknownOpcode ir => s.pc.toNat ≤ 253 ∧ ir = s.byteAtPc 0 ∧ ir ∉ opcodes
  | .divisionByZero p => p = s.pc ∧ s.byteAtPc 0 = 0xA4#8
  | .addressOutOfRange v => v = -1 ∨ v = 256
  | .registerOutOfRange a => 7 < a.toNat

/-- What STATUS says of the rest of the state: a Halted pc is one past a HLT opcode (R70, R168), a Faulted state
holds its cause (R130, R136). -/
def StatusLegal (s : State) : Prop :=
  match s.status with
  | .running => True
  | .halted => 1 ≤ s.pc.toNat ∧ s.mem.read (s.pc.toNat - 1) = 0x01#8
  | .faulted c => CauseLegal s c

/-- The invariant: memory in canonical form, FL legal, STATUS true of the state. -/
def Inv (s : State) : Prop := s.mem.wf ∧ FlLegal s.fl ∧ StatusLegal s

/-! ### A run under a step budget (R167) -/

/-- At most `n` steps, stopping where there is no next state. -/
def runFor : Nat → State → State
  | 0, s => s
  | n + 1, s =>
    match step s with
    | .next t => runFor n t
    | .fault _ => s
    | .refused _ => s

/-- How a run under a budget ended: exhaustion of the budget is "not shown to end", never Halted (R167). -/
inductive RunEnd where
  /-- A HLT executed. -/
  | halted
  /-- A step raised a fault. -/
  | faulted (cause : FaultCause)
  /-- The budget ran out. -/
  | notShownToEnd
  deriving DecidableEq, Repr

/-- The end of the run of `n` steps from `s`. -/
def runEnd (n : Nat) (s : State) : RunEnd :=
  match (runFor n s).status with
  | .running => .notShownToEnd
  | .halted => .halted
  | .faulted c => .faulted c

end Sys2Proof.Machine
end

