-- ==== Sys2Proof/Certificates/Slice0/Obligations.lean ====
section
/-! DEFINITION. The statements for the provers, each a Prop about the machine over all states, from the spec's numbered
rules. Where a rule rests on a decision of 92_eei_decisions.md its docstring names it (D<n>). -/

open Sys2Proof Sys2Proof.Machine

/-! ### Encoding -/

/-- Decode and encode agree for every instruction and every operand byte, the illegal register operands too: the
decoder reads exactly the instruction's bytes and gives back the rest (R50, R52, R53, R55). -/
def Obligations.DecodeEncodeRoundTrip : Prop :=
  ∀ (i : Instr) (rest : List Byte), decode (encode i ++ rest) = .ok (i, rest)

/-- Each byte string has one meaning: what decodes to `i` is `i`'s encoding and the rest (R53, R55, R60). -/
def Obligations.DecodedBytesAreTheEncoding : Prop :=
  ∀ (bytes rest : List Byte) (i : Instr), decode bytes = .ok (i, rest) → bytes = encode i ++ rest

/-- A few words written out from R55 and the source's own worked encoding (S1): a sanity statement. -/
def Obligations.OpcodeWordsFromTheTable : Prop :=
  decode [0x82#8, 0x00#8, 0x08#8] = .ok (.ldi 0#8 8#8, []) ∧
  decode [0x47#8, 0x00#8] = .ok (.prn 0#8, []) ∧
  decode [0x01#8] = .ok (.hlt, []) ∧
  decode [0xA7#8, 0x00#8, 0x01#8] = .ok (.cmp 0#8 1#8, []) ∧
  decode [0x69#8, 0x02#8, 0xFF#8] = .ok (.not 2#8, [0xFF#8]) ∧
  decode [0x45#8, 0x07#8] = .ok (.push 7#8, []) ∧
  decode [0x50#8, 0x01#8] = .ok (.call 1#8, []) ∧
  decode [0x11#8] = .ok (.ret, []) ∧
  decodeTableWord 24 0x0100A0 = some (.add 0#8 1#8)

/-- R131, R56: a step raises UnknownOpcode(ir) exactly where the byte fetched at pc is none of the 20 distinct opcodes,
and so for 236 of the 256 byte values, 0x00 among them. -/
def Obligations.UnknownOpcodeFaults : Prop :=
  (∀ (s : State) (ir : Byte), s.status = .running →
    (step s = .next (faultedWith s (.unknownOpcode ir)) ↔
      s.pc.toNat ≤ 253 ∧ ir = s.byteAtPc 0 ∧ ir ∉ opcodes)) ∧
  opcodes.Nodup ∧ opcodes.length = 20 ∧ 0x00#8 ∉ opcodes

/-- An operand byte beyond the N-th is ignored (R57 step 4, D25): the decoded instruction does not depend on it. -/
def Obligations.UnusedOperandBytesIgnored : Prop :=
  ∀ ir x y x' y' : Byte,
    (operandCount ir = 0 → (decode [ir, x, y]).map Prod.fst = (decode [ir, x', y']).map Prod.fst) ∧
    (operandCount ir = 1 → (decode [ir, x, y]).map Prod.fst = (decode [ir, x, y']).map Prod.fst)

/-! ### The step -/

/-- A step runs the decoded instruction, and adds nothing around exec (R57). -/
def Obligations.StepRunsTheFetchedInstruction : Prop :=
  ∀ (s : State) (i : Instr) (rest : List Byte), s.status = .running → s.pc.toNat ≤ 253 →
    decode [s.byteAtPc 0, s.byteAtPc 1, s.byteAtPc 2] = .ok (i, rest) → step s = exec i s

/-- R168: no step is taken in Halted or Faulted, and a step that halts leaves every register, FL, MEM and OUT as they
were, with pc one past the HLT opcode (D10, D18). -/
def Obligations.StoppedTakesNoStep : Prop :=
  (∀ s t : State, s.status = .halted → step s ≠ .next t) ∧
  (∀ (s t : State) (c : FaultCause), s.status = .faulted c → step s ≠ .next t) ∧
  (∀ s t : State, step s = .next t → t.status = .halted →
    s.mem.read s.pc.toNat = 0x01#8 ∧ t = { s with status := .halted, pc := s.pc + 1#8 } ∧
    t.pc.toNat = s.pc.toNat + 1)

/-- The step is total on Running states: it always answers a next state there, and only there (R6, R168). The name a
stopped state is answered with is the model's choice (log 1). -/
def Obligations.StepsExactlyWhereRunning : Prop :=
  ∀ s : State, ((∃ t, step s = .next t) ↔ s.status = .running) ∧
    (s.status = .halted → step s = .fault .noStepHalted) ∧
    (∀ c, s.status = .faulted c → step s = .fault (.noStepFaulted c))

/-- R136: a step that faults changes nothing but STATUS, and no step follows (D4). -/
def Obligations.FaultIsPreciseAndTerminal : Prop :=
  ∀ (s t : State) (c : FaultCause), step s = .next t → t.status = .faulted c →
    t = faultedWith s c ∧ ∀ u, step t ≠ .next u

/-- R135: the fault reported is the first of the list: fetch, unknown opcode, first register, second register, the
divisor or the stack pointer, the fall-through (D17); where none holds, the step completes without a fault. -/
def Obligations.FaultsInPriorityOrder : Prop :=
  ∀ s : State, s.status = .running →
    (254 ≤ s.pc.toNat → step s = .next (faultedWith s (.addressOutOfRange 256))) ∧
    (s.pc.toNat ≤ 253 → s.byteAtPc 0 ∉ opcodes →
      step s = .next (faultedWith s (.unknownOpcode (s.byteAtPc 0)))) ∧
    (s.pc.toNat ≤ 253 → s.byteAtPc 0 ∈ opcodes → ∃ i, s.Fetches i ∧
      ((∃ c, Instr.firstFault? i s = some c ∧ step s = .next (faultedWith s c)) ∨
        (Instr.firstFault? i s = none ∧ ∃ t, step s = .next t ∧ ∀ c, t.status ≠ .faulted c)))

/-- R133: the complete list of places where AddressOutOfRange is raised, with what each records (D5). -/
def Obligations.AddressFaultPlaces : Prop :=
  ∀ (s : State) (v : Int), s.status = .running →
    (step s = .next (faultedWith s (.addressOutOfRange v)) ↔
      (254 ≤ s.pc.toNat ∧ v = 256) ∨
      ∃ i, s.Fetches i ∧ Instr.badOperand? i = none ∧
        ((v = -1 ∧ s.reg 7 = 0#8 ∧ ∃ a, i = .push a ∨ i = .call a) ∨
         (v = 256 ∧ s.reg 7 = 255#8 ∧ ((∃ a, i = .pop a ∧ a ≠ 7#8) ∨ i = .ret)) ∨
         (v = 256 ∧ i = .pop 7#8 ∧ s.mem.read (s.reg 7).toNat = 255#8) ∨
         (v = 256 ∧ s.pc.toNat = 253 ∧ (encode i).length = 3 ∧
           ¬ ∃ (a : Byte) (rb : RegIdx), i = .mod a (regByte rb) ∧ s.reg rb = 0#8)))

/-- R132: DivisionByZero is raised by MOD, by no other instruction, exactly where its second register holds 0; the
destination and pc keep their values. -/
def Obligations.DivisionByZeroPlaces : Prop :=
  ∀ (s : State) (p : Byte), s.status = .running →
    (step s = .next (faultedWith s (.divisionByZero p)) ↔
      p = s.pc ∧ ∃ ra rb : RegIdx, s.Fetches (.mod (regByte ra) (regByte rb)) ∧ s.reg rb = 0#8)

/-- R134: RegisterOutOfRange is raised exactly where a register operand of the fetched instruction is above 7, with the
first such operand, JEQ and JNE not taken included (D6). -/
def Obligations.RegisterFaultPlaces : Prop :=
  ∀ (s : State) (v : Byte), s.status = .running →
    (step s = .next (faultedWith s (.registerOutOfRange v)) ↔
      ∃ i, s.Fetches i ∧ Instr.badOperand? i = some v)

/-! ### Rules of the whole machine -/

/-- R16: CMP is FL's only writer; JEQ and JNE are its only readers and read only E = FL[0] (D2): changing FL, for them
changing it elsewhere than in FL[0], changes nothing else in the answer. -/
def Obligations.FlagsWrittenByCmpReadByBranches : Prop :=
  (∀ (i : Instr) (s t : State), exec i s = .next t → (∀ a b, i ≠ .cmp a b) → t.fl = s.fl) ∧
  (∀ (i : Instr) (s : State) (v : Byte), (∀ a b, i ≠ .cmp a b) → (∀ a, i ≠ .jeq a ∧ i ≠ .jne a) →
    exec i { s with fl := v } = mapNext (fun t => { t with fl := v }) (exec i s)) ∧
  (∀ (a : Byte) (s : State) (v : Byte), v.getLsbD 0 = s.fl.getLsbD 0 →
    exec (.jeq a) { s with fl := v } = mapNext (fun t => { t with fl := v }) (exec (.jeq a) s) ∧
    exec (.jne a) { s with fl := v } = mapNext (fun t => { t with fl := v }) (exec (.jne a) s)) ∧
  (∀ (ra rb : RegIdx) (s : State) (v : Byte), s.pc.toNat ≤ 252 →
    exec (.cmp (regByte ra) (regByte rb)) { s with fl := v } = exec (.cmp (regByte ra) (regByte rb)) s)

/-- R18, R30, C3: only PUSH and CALL change memory, and only the byte at SP − 1. -/
def Obligations.MemoryWrittenOnlyByPushAndCall : Prop :=
  ∀ (i : Instr) (s t : State) (a : Nat), exec i s = .next t → t.mem.read a ≠ s.mem.read a →
    (∃ b, i = .push b ∨ i = .call b) ∧ (a : Int) = ((s.reg 7).toNat : Int) - 1

/-- R19: OUT is empty at reset; PRN appends one byte, without ever being refused; nothing else touches it; no
instruction reads it (what stood in it before changes nothing else). -/
def Obligations.OutputWrittenByPrnReadByNone : Prop :=
  State.reset.out = [] ∧
  (∀ (i : Instr) (s t : State), exec i s = .next t → (∀ a, i ≠ .prn a) → t.out = s.out) ∧
  (∀ (r : RegIdx) (s : State), s.pc.toNat ≤ 253 →
    ∃ t, exec (.prn (regByte r)) s = .next t ∧ t.out = s.out ++ [s.reg r]) ∧
  (∀ (i : Instr) (s : State) (o : List Byte),
    exec i { s with out := o ++ s.out } = mapNext (fun t => { t with out := o ++ t.out }) (exec i s))

/-- No instruction reads or writes a register outside its columns of R13, and what it writes without reading is
overwritten; that a register of a column IS read or written is said by the result statements below, one per
instruction. A register not in the "writes" column keeps its value; the value of a register in neither column changes
nothing in the answer but itself; the old value of a register that is written and not read changes nothing in an answer
without a fault. -/
def Obligations.RegisterReadWriteTable : Prop :=
  (∀ (i : Instr) (s t : State) (r : RegIdx), exec i s = .next t → Instr.writesReg i r = false →
    t.reg r = s.reg r) ∧
  (∀ (i : Instr) (s : State) (r : RegIdx) (v : Byte),
    Instr.readsReg i s r = false → Instr.writesReg i r = false →
    exec i { s with regs := s.regs.set r v } =
      mapNext (fun t => { t with regs := t.regs.set r v }) (exec i s)) ∧
  (∀ (i : Instr) (s t : State) (r : RegIdx) (v : Byte), s.status = .running →
    exec i s = .next t → (∀ c, t.status ≠ .faulted c) →
    Instr.readsReg i s r = false → Instr.writesReg i r = true →
    exec i { s with regs := s.regs.set r v } = .next t)

/-- R58, R59: an instruction that completes and does not write pc itself leaves pc at the byte after its last operand;
CALL, RET, JMP, JEQ with E set and JNE with E clear are those that write it (D20). -/
def Obligations.FallThroughAdvance : Prop :=
  ∀ (i : Instr) (s t : State), s.status = .running → exec i s = .next t → (∀ c, t.status ≠ .faulted c) →
    i ≠ .ret → (∀ a, i ≠ .call a ∧ i ≠ .jmp a) →
    (s.fl.getLsbD 0 = true → ∀ a, i ≠ .jeq a) → (s.fl.getLsbD 0 = false → ∀ a, i ≠ .jne a) →
    t.pc.toNat = s.pc.toNat + (encode i).length

/-- Every step keeps the invariant, from every state that meets it: memory in canonical form, FL one of 0, 1, 2, 4
(R15), a Halted pc one past a HLT opcode (R70, R168), a Faulted state holding what R130 says its cause records. -/
def Obligations.StepKeepsInvariant : Prop :=
  ∀ s t : State, Inv s → step s = .next t → Inv t

/-- The invariant holds after reset, with the empty image and with any other. -/
def Obligations.InvariantAtReset : Prop :=
  Inv State.reset ∧ ∀ image : List Byte, Inv (resetWith image)

/-- R21, R160, R161: what reset and load leave, whatever the state before (D3, D15); an image over 256 bytes is refused
(D14); the empty image is legal and its first step raises UnknownOpcode(0x00). -/
def Obligations.ResetAndLoad : Prop :=
  (∀ (image : List Byte) (s : State), image.length ≤ 256 →
    ∃ t, hostReset image s = .next t ∧ (∀ r : RegIdx, r ≠ 7 → t.reg r = 0#8) ∧ t.reg 7 = 244#8 ∧
      t.pc = 0#8 ∧ t.fl = 0#8 ∧ t.status = .running ∧ t.out = [] ∧
      ∀ a, a < 256 → t.mem.read a = image.getD a 0#8) ∧
  (∀ (image : List Byte) (s : State), 256 < image.length →
    hostReset image s = .refused (.imageTooLong image.length)) ∧
  (∀ s : State, hostReset [] s = .next State.reset) ∧
  step State.reset = .next (faultedWith State.reset (.unknownOpcode 0x00#8))

/-- A run that has stopped within a budget has the same end under every greater budget (R167, R168). -/
def Obligations.StoppedRunStaysStopped : Prop :=
  ∀ (n m : Nat) (s : State), (runFor n s).status ≠ .running →
    runFor (n + m) s = runFor n s ∧ runEnd (n + m) s = runEnd n s

/-- The stack discipline, derived from R100 and R101: PUSH then POP of the same register (not R7) restores every
register and leaves the pushed byte at SP − 1, and nothing else changed but pc. -/
def Obligations.PushPopRoundTrip : Prop :=
  ∀ (s : State) (r : RegIdx), r ≠ 7 → s.reg 7 ≠ 0#8 → s.pc.toNat ≤ 251 →
    ∃ t u, exec (.push (regByte r)) s = .next t ∧ exec (.pop (regByte r)) t = .next u ∧
      u.regs = s.regs ∧ u.pc = s.pc + 4#8 ∧ u.fl = s.fl ∧ u.status = s.status ∧ u.out = s.out ∧
      u.mem.read ((s.reg 7).toNat - 1) = s.reg r ∧
      ∀ a, a ≠ (s.reg 7).toNat - 1 → u.mem.read a = s.mem.read a

/-- The call and return pair, derived from R110 and R111: a RET that finds SP and the pushed byte as the CALL left them
resumes at the instruction after the CALL. -/
def Obligations.CallReturnPair : Prop :=
  ∀ (s u : State) (r : RegIdx), s.pc.toNat ≤ 253 → s.reg 7 ≠ 0#8 →
    (∃ t, exec (.call (regByte r)) s = .next t ∧ t.reg 7 = s.reg 7 - 1#8 ∧
      t.mem.read ((s.reg 7).toNat - 1) = s.pc + 2#8) ∧
    (u.reg 7 = s.reg 7 - 1#8 → u.mem.read ((s.reg 7).toNat - 1) = s.pc + 2#8 →
      ∃ w, exec .ret u = .next w ∧ w.pc = s.pc + 2#8 ∧ w.reg 7 = s.reg 7 ∧ w.reg 4 = s.pc + 2#8)

/-- Fetch coherence, derived from R38, R42 and R100: a byte that PUSH stores where the next instruction stands is the
opcode the next step fetches. -/
def Obligations.PushedByteIsFetchedNext : Prop :=
  ∀ (s : State) (r : RegIdx), s.status = .running → r ≠ 7 → s.Fetches (.push (regByte r)) →
    (s.reg 7).toNat = s.pc.toNat + 3 →
    ∃ t, step s = .next t ∧ t.status = .running ∧ t.byteAtPc 0 = s.reg r

/-! ### One rule per instruction: encoding, faults, and the completed result -/

/-- R70 (D5, D10): HLT halts with pc one past it and nothing else changed; no further step; at pc 254 or 255 the step
faults instead; no other instruction halts. -/
def Obligations.HaltStopsTheCore : Prop :=
  encode .hlt = [0x01#8] ∧
  (∀ s : State, s.pc.toNat ≤ 253 →
    exec .hlt s = .next { s with status := .halted, pc := s.pc + 1#8 } ∧
    ∀ u, step { s with status := .halted, pc := s.pc + 1#8 } ≠ .next u) ∧
  (∀ s : State, s.status = .running → 254 ≤ s.pc.toNat → s.mem.read s.pc.toNat = 0x01#8 →
    step s = .next (faultedWith s (.addressOutOfRange 256))) ∧
  (∀ s t : State, step s = .next t → t.status = .halted → s.Fetches .hlt)

/-- R71: LDI loads the immediate as it stands, R7 and R4 included. -/
def Obligations.LdiLoadsImmediate : Prop :=
  (∀ a imm : Byte, encode (.ldi a imm) = [0x82#8, a, imm]) ∧
  (∀ (s : State) (a imm : Byte), 7 < a.toNat →
    exec (.ldi a imm) s = .next (faultedWith s (.registerOutOfRange a))) ∧
  (∀ (s : State) (r : RegIdx) (imm : Byte), s.pc.toNat = 253 →
    exec (.ldi (regByte r) imm) s = .next (faultedWith s (.addressOutOfRange 256))) ∧
  (∀ (s : State) (r : RegIdx) (imm : Byte), s.pc.toNat ≤ 252 →
    exec (.ldi (regByte r) imm) s = .next { s with regs := s.regs.set r imm, pc := s.pc + 3#8 })

/-- R72 (D13): PRN appends x[a] to OUT; the host's rendering gains one line, its unsigned decimal numeral. -/
def Obligations.PrnEmitsRegister : Prop :=
  (∀ a : Byte, encode (.prn a) = [0x47#8, a]) ∧
  (∀ (s : State) (a : Byte), 7 < a.toNat →
    exec (.prn a) s = .next (faultedWith s (.registerOutOfRange a))) ∧
  (∀ (s : State) (r : RegIdx), s.pc.toNat ≤ 253 →
    exec (.prn (regByte r)) s = .next { s with out := s.out ++ [s.reg r], pc := s.pc + 2#8 } ∧
    ∃ line, renderOut (s.out ++ [s.reg r]) = renderOut s.out ++ [line] ∧ IsNumeralOf line (s.reg r)) ∧
  renderOut [8#8] = ["8"] ∧ renderOut [255#8] = ["255"]

/-- The model's choice (log 16), which no rule of the spec makes (R72 and N15 leave leading zeros and padding open): a
rendered numeral has no leading zeros and no padding. -/
def Obligations.RenderedNumeralsAreBare : Prop :=
  ∀ v : Byte, ∃ line, renderOut [v] = [line] ∧ IsNumeralOf line v ∧ (v ≠ 0#8 → line.toList.head? ≠ some '0') ∧
    (v = 0#8 → line = "0")

/-- R81 (D8): x[a] <- (va + vb) mod 256. -/
def Obligations.AddWrapsModulo256 : Prop :=
  RegRegRule .add 0xA0#8 (fun va vb => BitVec.ofNat 8 ((va.toNat + vb.toNat) % 256))

/-- R82 (D8): x[a] <- (va · vb) mod 256. -/
def Obligations.MulKeepsLowByte : Prop :=
  RegRegRule .mul 0xA2#8 (fun va vb => BitVec.ofNat 8 ((va.toNat * vb.toNat) % 256))

/-- R83 (D8): x[a] <- va mod vb; a zero divisor faults after both index checks and before the fall-through check. -/
def Obligations.ModRemainderOrFault : Prop :=
  (∀ a b : Byte, encode (.mod a b) = [0xA4#8, a, b]) ∧
  (∀ (s : State) (a b : Byte), 7 < a.toNat →
    exec (.mod a b) s = .next (faultedWith s (.registerOutOfRange a))) ∧
  (∀ (s : State) (ra : RegIdx) (b : Byte), 7 < b.toNat →
    exec (.mod (regByte ra) b) s = .next (faultedWith s (.registerOutOfRange b))) ∧
  (∀ (s : State) (ra rb : RegIdx), s.reg rb = 0#8 →
    exec (.mod (regByte ra) (regByte rb)) s = .next (faultedWith s (.divisionByZero s.pc))) ∧
  (∀ (s : State) (ra rb : RegIdx), s.reg rb ≠ 0#8 → s.pc.toNat = 253 →
    exec (.mod (regByte ra) (regByte rb)) s = .next (faultedWith s (.addressOutOfRange 256))) ∧
  (∀ (s : State) (ra rb : RegIdx), s.reg rb ≠ 0#8 → s.pc.toNat ≤ 252 →
    exec (.mod (regByte ra) (regByte rb)) s =
      .next { s with
        regs := s.regs.set ra (BitVec.ofNat 8 ((s.reg ra).toNat % (s.reg rb).toNat)), pc := s.pc + 3#8 })

/-- R84 (D8): x[a] <- va & vb. -/
def Obligations.AndBitwise : Prop := RegRegRule .and 0xA8#8 (fun va vb => va &&& vb)

/-- R85 (D8): x[a] <- va | vb. -/
def Obligations.OrBitwise : Prop := RegRegRule .or 0xAA#8 (fun va vb => va ||| vb)

/-- R86 (D8): x[a] <- va ^ vb. -/
def Obligations.XorBitwise : Prop := RegRegRule .xor 0xAB#8 (fun va vb => va ^^^ vb)

/-- R87: x[a] <- 255 − x[a], every bit inverted; one operand, two bytes long. -/
def Obligations.NotComplements : Prop :=
  (∀ a : Byte, encode (.not a) = [0x69#8, a]) ∧
  (∀ (s : State) (a : Byte), 7 < a.toNat →
    exec (.not a) s = .next (faultedWith s (.registerOutOfRange a))) ∧
  (∀ (s : State) (r : RegIdx), s.pc.toNat ≤ 253 →
    exec (.not (regByte r)) s =
      .next { s with regs := s.regs.set r (BitVec.ofNat 8 (255 - (s.reg r).toNat)), pc := s.pc + 2#8 } ∧
    BitVec.ofNat 8 (255 - (s.reg r).toNat) = s.reg r ^^^ 0xFF#8)

/-- R88 (D8, D11): x[a] <- (va · 2^vb) mod 256, the amount being the whole byte; 0 where it is 8 or more. -/
def Obligations.ShlByWholeByte : Prop :=
  RegRegRule .shl 0xAC#8 (fun va vb => if 8 ≤ vb.toNat then 0#8 else BitVec.ofNat 8 (va.toNat * 2 ^ vb.toNat % 256))

/-- R89 (D8, D11): x[a] <- floor(va / 2^vb), logical, the amount being the whole byte; 0 where it is 8 or more. -/
def Obligations.ShrLogical : Prop :=
  RegRegRule .shr 0xAD#8 (fun va vb => if 8 ≤ vb.toNat then 0#8 else BitVec.ofNat 8 (va.toNat / 2 ^ vb.toNat))

/-- R90 (D2, D8, C1): FL becomes 1, 2 or 4 by the unsigned order of x[a] and x[b], whatever it held; no register
changes. -/
def Obligations.CmpSetsOneFlag : Prop :=
  (∀ a b : Byte, encode (.cmp a b) = [0xA7#8, a, b]) ∧
  (∀ (s : State) (a b : Byte), 7 < a.toNat →
    exec (.cmp a b) s = .next (faultedWith s (.registerOutOfRange a))) ∧
  (∀ (s : State) (ra : RegIdx) (b : Byte), 7 < b.toNat →
    exec (.cmp (regByte ra) b) s = .next (faultedWith s (.registerOutOfRange b))) ∧
  (∀ (s : State) (ra rb : RegIdx), s.pc.toNat = 253 →
    exec (.cmp (regByte ra) (regByte rb)) s = .next (faultedWith s (.addressOutOfRange 256))) ∧
  (∀ (s : State) (ra rb : RegIdx), s.pc.toNat ≤ 252 →
    exec (.cmp (regByte ra) (regByte rb)) s =
      .next { s with
        fl := if s.reg ra = s.reg rb then 1#8 else if s.reg rb < s.reg ra then 2#8 else 4#8, pc := s.pc + 3#8 })

/-- R100 (D1, D5, D9): PUSH stores at the decremented SP, after SP is written, so that PUSH R7 stores the decremented
SP; SP = 0 faults. -/
def Obligations.PushPreDecrements : Prop :=
  (∀ a : Byte, encode (.push a) = [0x45#8, a]) ∧
  (∀ (s : State) (a : Byte), 7 < a.toNat →
    exec (.push a) s = .next (faultedWith s (.registerOutOfRange a))) ∧
  (∀ (s : State) (r : RegIdx), s.reg 7 = 0#8 →
    exec (.push (regByte r)) s = .next (faultedWith s (.addressOutOfRange (-1)))) ∧
  (∀ (s : State) (r : RegIdx), s.reg 7 ≠ 0#8 → s.pc.toNat ≤ 253 →
    ∃ t, exec (.push (regByte r)) s = .next t ∧ t.regs = s.regs.set 7 (s.reg 7 - 1#8) ∧ t.pc = s.pc + 2#8 ∧
      t.fl = s.fl ∧ t.status = s.status ∧ t.out = s.out ∧
      t.mem.read ((s.reg 7).toNat - 1) = (if r = 7 then s.reg 7 - 1#8 else s.reg r) ∧
      ∀ a, a ≠ (s.reg 7).toNat - 1 → t.mem.read a = s.mem.read a)

/-- R101 (D1, D5, D9, C3): POP loads from SP and then increments x[7], so that POP R7 leaves MEM[SP] + 1; the fault is
on the incremented value leaving 0..255; memory is only read. -/
def Obligations.PopPostIncrements : Prop :=
  (∀ a : Byte, encode (.pop a) = [0x46#8, a]) ∧
  (∀ (s : State) (a : Byte), 7 < a.toNat →
    exec (.pop a) s = .next (faultedWith s (.registerOutOfRange a))) ∧
  (∀ (s : State) (r : RegIdx), r ≠ 7 → s.reg 7 = 255#8 →
    exec (.pop (regByte r)) s = .next (faultedWith s (.addressOutOfRange 256))) ∧
  (∀ s : State, s.mem.read (s.reg 7).toNat = 255#8 →
    exec (.pop 7#8) s = .next (faultedWith s (.addressOutOfRange 256))) ∧
  (∀ (s : State) (r : RegIdx), r ≠ 7 → s.reg 7 ≠ 255#8 → s.pc.toNat ≤ 253 →
    exec (.pop (regByte r)) s =
      .next { s with
        regs := (s.regs.set r (s.mem.read (s.reg 7).toNat)).set 7 (s.reg 7 + 1#8), pc := s.pc + 2#8 }) ∧
  (∀ s : State, s.mem.read (s.reg 7).toNat ≠ 255#8 → s.pc.toNat ≤ 253 →
    exec (.pop 7#8) s =
      .next { s with regs := s.regs.set 7 (s.mem.read (s.reg 7).toNat + 1#8), pc := s.pc + 2#8 })

/-- R110 (D1, D5, D9): CALL writes the return address to R4 and to the stack and jumps to x[a], read last, so that CALL
R4 continues at pc + 2 and CALL R7 at the decremented SP. -/
def Obligations.CallThroughLinkRegister : Prop :=
  (∀ a : Byte, encode (.call a) = [0x50#8, a]) ∧
  (∀ (s : State) (a : Byte), 7 < a.toNat →
    exec (.call a) s = .next (faultedWith s (.registerOutOfRange a))) ∧
  (∀ (s : State) (r : RegIdx), s.reg 7 = 0#8 → s.pc.toNat ≤ 253 →
    exec (.call (regByte r)) s = .next (faultedWith s (.addressOutOfRange (-1)))) ∧
  (∀ (s : State) (r : RegIdx), s.reg 7 ≠ 0#8 → s.pc.toNat ≤ 253 →
    ∃ t, exec (.call (regByte r)) s = .next t ∧
      t.regs = (s.regs.set 4 (s.pc + 2#8)).set 7 (s.reg 7 - 1#8) ∧
      t.pc = (if r = 4 then s.pc + 2#8 else if r = 7 then s.reg 7 - 1#8 else s.reg r) ∧
      t.fl = s.fl ∧ t.status = s.status ∧ t.out = s.out ∧
      t.mem.read ((s.reg 7).toNat - 1) = s.pc + 2#8 ∧
      ∀ a, a ≠ (s.reg 7).toNat - 1 → t.mem.read a = s.mem.read a)

/-- R111 (D1, D5): RET pops into R4 and jumps to it; memory is only read. -/
def Obligations.RetPopsLinkRegister : Prop :=
  encode .ret = [0x11#8] ∧
  (∀ s : State, s.reg 7 = 255#8 → exec .ret s = .next (faultedWith s (.addressOutOfRange 256))) ∧
  (∀ s : State, s.reg 7 ≠ 255#8 →
    exec .ret s =
      .next { s with
        regs := (s.regs.set 4 (s.mem.read (s.reg 7).toNat)).set 7 (s.reg 7 + 1#8),
        pc := s.mem.read (s.reg 7).toNat })

/-- R112: JMP writes pc, a jump to itself included. -/
def Obligations.JmpToRegister : Prop :=
  (∀ a : Byte, encode (.jmp a) = [0x54#8, a]) ∧
  (∀ (s : State) (a : Byte), 7 < a.toNat →
    exec (.jmp a) s = .next (faultedWith s (.registerOutOfRange a))) ∧
  (∀ (s : State) (r : RegIdx), exec (.jmp (regByte r)) s = .next { s with pc := s.reg r })

/-- R113 (D2, D6): JEQ jumps where FL[0] = 1, else advances by 2; its operand is checked either way. -/
def Obligations.JeqWhereEqual : Prop :=
  (∀ a : Byte, encode (.jeq a) = [0x55#8, a]) ∧
  (∀ (s : State) (a : Byte), 7 < a.toNat →
    exec (.jeq a) s = .next (faultedWith s (.registerOutOfRange a))) ∧
  (∀ (s : State) (r : RegIdx), s.fl.getLsbD 0 = true →
    exec (.jeq (regByte r)) s = .next { s with pc := s.reg r }) ∧
  (∀ (s : State) (r : RegIdx), s.fl.getLsbD 0 = false → s.pc.toNat ≤ 253 →
    exec (.jeq (regByte r)) s = .next { s with pc := s.pc + 2#8 })

/-- R114 (D2, D6): JNE jumps where FL[0] = 0, else advances by 2; its operand is checked either way. -/
def Obligations.JneWhereNotEqual : Prop :=
  (∀ a : Byte, encode (.jne a) = [0x56#8, a]) ∧
  (∀ (s : State) (a : Byte), 7 < a.toNat →
    exec (.jne a) s = .next (faultedWith s (.registerOutOfRange a))) ∧
  (∀ (s : State) (r : RegIdx), s.fl.getLsbD 0 = false →
    exec (.jne (regByte r)) s = .next { s with pc := s.reg r }) ∧
  (∀ (s : State) (r : RegIdx), s.fl.getLsbD 0 = true → s.pc.toNat ≤ 253 →
    exec (.jne (regByte r)) s = .next { s with pc := s.pc + 2#8 })

/-! ### Frames: what an instruction leaves unchanged wherever exec answers a next state -/

/-- LDI and the nine ALU instructions that write a register: only the register operand `a` names may change; FL, OUT
and every byte of memory are as before (R71, R80). -/
def Obligations.FrameOfRegisterResults : Prop :=
  ∀ (a b : Byte) (i : Instr) (s t : State),
    i ∈ [.ldi a b, .add a b, .mul a b, .mod a b, .and a b, .or a b, .xor a b, .not a, .shl a b, .shr a b] →
    exec i s = .next t →
    RegsKeptBut (fun r => a = regByte r) s t ∧ t.fl = s.fl ∧ t.out = s.out ∧ MemKept s t ∧ StatusKeptOrFaulted s t

/-- CMP: no register, no byte of memory and no output changes; FL may (R90). -/
def Obligations.FrameOfCompare : Prop :=
  ∀ (a b : Byte) (s t : State), exec (.cmp a b) s = .next t →
    RegsKeptBut (fun _ => False) s t ∧ t.out = s.out ∧ MemKept s t ∧ StatusKeptOrFaulted s t

/-- PRN, JMP, JEQ and JNE: no register, no flag and no byte of memory changes, and OUT only by PRN (R72, R112 to
R114). -/
def Obligations.FrameOfPrintAndJumps : Prop :=
  ∀ (a : Byte) (i : Instr) (s t : State), i ∈ [.prn a, .jmp a, .jeq a, .jne a] → exec i s = .next t →
    RegsKeptBut (fun _ => False) s t ∧ t.fl = s.fl ∧ (i ≠ .prn a → t.out = s.out) ∧ MemKept s t ∧
    StatusKeptOrFaulted s t

/-- HLT: no register, no flag, no byte of memory and no output changes; STATUS becomes Halted or the step faulted
(R70). -/
def Obligations.FrameOfHalt : Prop :=
  ∀ s t : State, exec .hlt s = .next t →
    RegsKeptBut (fun _ => False) s t ∧ t.fl = s.fl ∧ t.out = s.out ∧ MemKept s t ∧
    (t.status = .halted ∨ ∃ c, t = faultedWith s c)

/-- PUSH: only x[7] and the byte at `Addr(x[7] − 1)` may change beside pc (R100). -/
def Obligations.FrameOfPush : Prop :=
  ∀ (a : Byte) (s t : State), exec (.push a) s = .next t →
    RegsKeptBut (fun r => r = 7) s t ∧ t.fl = s.fl ∧ t.out = s.out ∧ StatusKeptOrFaulted s t ∧
    MemKeptBut ((s.sp.toNat : Int) - 1) s t

/-- POP: only x[a] and x[7] may change beside pc; memory is only read (R101, C3). -/
def Obligations.FrameOfPop : Prop :=
  ∀ (a : Byte) (s t : State), exec (.pop a) s = .next t →
    RegsKeptBut (fun r => a = regByte r ∨ r = 7) s t ∧ t.fl = s.fl ∧ t.out = s.out ∧ MemKept s t ∧
    StatusKeptOrFaulted s t

/-- CALL: only x[4], x[7] and the byte at `Addr(x[7] − 1)` may change beside pc (R110). -/
def Obligations.FrameOfCall : Prop :=
  ∀ (a : Byte) (s t : State), exec (.call a) s = .next t →
    RegsKeptBut (fun r => r = 4 ∨ r = 7) s t ∧ t.fl = s.fl ∧ t.out = s.out ∧ StatusKeptOrFaulted s t ∧
    MemKeptBut ((s.sp.toNat : Int) - 1) s t

/-- RET: only x[4] and x[7] may change beside pc; memory is only read (R111, C3). -/
def Obligations.FrameOfReturn : Prop :=
  ∀ s t : State, exec .ret s = .next t →
    RegsKeptBut (fun r => r = 4 ∨ r = 7) s t ∧ t.fl = s.fl ∧ t.out = s.out ∧ MemKept s t ∧
    StatusKeptOrFaulted s t
end

