-- ==== Sys2Proof/Laws/Decode.lean ====
section
/-! SUPPORT. What the decoder's parts do: which bytes the dispatch table knows, and that three bytes are always
enough. -/

namespace Sys2Proof.Machine

/-- The dispatch table knows the 20 opcodes of R55 and no other byte. -/
theorem dispatch_isSome (ir : Byte) : (dispatch ir).isSome = true ↔ ir ∈ opcodes := by
  revert ir; decide

/-- The operand count of an opcode is 0, 1 or 2: no opcode has 0b11 in its top bits (R52, D7). -/
theorem operandCount_le_two {ir : Byte} (h : ir ∈ opcodes) : operandCount ir ≤ 2 := by
  revert ir; decide

theorem decode_unknown {ir : Byte} (h : ir ∉ opcodes) (rest : List Byte) :
    decode (ir :: rest) = .error (.unknownOpcode ir) := by
  have hd : dispatch ir = none := by
    rw [← Option.not_isSome_iff_eq_none]; exact fun e => h ((dispatch_isSome ir).mp e)
  simp [decode, hd]

/-- Three bytes that begin with an opcode decode: a step never meets a list that is too short. -/
theorem decode_three {ir : Byte} (h : ir ∈ opcodes) (x y : Byte) : ∃ i rest, decode [ir, x, y] = .ok (i, rest) := by
  obtain ⟨f, hf⟩ := Option.isSome_iff_exists.mp ((dispatch_isSome ir).mpr h)
  have h2 := operandCount_le_two h
  simp only [decode, hf]
  rcases (show operandCount ir = 0 ∨ operandCount ir = 1 ∨ operandCount ir = 2 by omega) with e | e | e
  · rw [e]; exact ⟨_, _, rfl⟩
  · rw [e]; exact ⟨_, _, rfl⟩
  · rw [e]; exact ⟨_, _, rfl⟩

/-- Where the fetch is inside memory, an instruction is fetched exactly where the byte at pc is an opcode. -/
theorem fetches_iff_opcode {s : State} (hp : s.pc.toNat ≤ 253) : (∃ i, s.Fetches i) ↔ s.byteAtPc 0 ∈ opcodes := by
  refine ⟨fun ⟨i, _, rest, hd⟩ => ?_, fun ho => ?_⟩
  · by_contra ho
    rw [decode_unknown ho] at hd
    cases hd
  · obtain ⟨i, rest, hd⟩ := decode_three ho (s.byteAtPc 1) (s.byteAtPc 2)
    exact ⟨i, hp, rest, hd⟩

/-- At most one instruction is fetched. -/
theorem fetches_unique {s : State} {i j : Instr} (hi : s.Fetches i) (hj : s.Fetches j) : i = j := by
  obtain ⟨_, _, hi⟩ := hi
  obtain ⟨_, _, hj⟩ := hj
  rw [hi] at hj
  cases hj
  rfl

/-- The opcodes are distinct, so each byte has one row (R62). -/
theorem dispatchTable_nodup : (dispatchTable.map Prod.fst).Nodup := by decide

end Sys2Proof.Machine
end

