-- ==== Sys2Proof/Laws/State.lean ====
section
/-! SUPPORT. One lemma per field per update, so that no proof unfolds a record update. -/

namespace Sys2Proof.Machine

section
variable (s : State) (i j : RegIdx) (v a : Byte) (st : Status)

@[simp] theorem setReg_regs : (s.setReg i v).regs = s.regs.set i v := rfl
@[simp] theorem setReg_pc : (s.setReg i v).pc = s.pc := rfl
@[simp] theorem setReg_fl : (s.setReg i v).fl = s.fl := rfl
@[simp] theorem setReg_status : (s.setReg i v).status = s.status := rfl
@[simp] theorem setReg_mem : (s.setReg i v).mem = s.mem := rfl
@[simp] theorem setReg_out : (s.setReg i v).out = s.out := rfl

@[simp] theorem setPc_regs : (s.setPc v).regs = s.regs := rfl
@[simp] theorem setPc_pc : (s.setPc v).pc = v := rfl
@[simp] theorem setPc_fl : (s.setPc v).fl = s.fl := rfl
@[simp] theorem setPc_status : (s.setPc v).status = s.status := rfl
@[simp] theorem setPc_mem : (s.setPc v).mem = s.mem := rfl
@[simp] theorem setPc_out : (s.setPc v).out = s.out := rfl

@[simp] theorem setFl_regs : (s.setFl v).regs = s.regs := rfl
@[simp] theorem setFl_pc : (s.setFl v).pc = s.pc := rfl
@[simp] theorem setFl_fl : (s.setFl v).fl = v := rfl
@[simp] theorem setFl_status : (s.setFl v).status = s.status := rfl
@[simp] theorem setFl_mem : (s.setFl v).mem = s.mem := rfl
@[simp] theorem setFl_out : (s.setFl v).out = s.out := rfl

@[simp] theorem setStatus_regs : (s.setStatus st).regs = s.regs := rfl
@[simp] theorem setStatus_pc : (s.setStatus st).pc = s.pc := rfl
@[simp] theorem setStatus_fl : (s.setStatus st).fl = s.fl := rfl
@[simp] theorem setStatus_status : (s.setStatus st).status = st := rfl
@[simp] theorem setStatus_mem : (s.setStatus st).mem = s.mem := rfl
@[simp] theorem setStatus_out : (s.setStatus st).out = s.out := rfl

@[simp] theorem store_regs : (s.store a v).regs = s.regs := rfl
@[simp] theorem store_pc : (s.store a v).pc = s.pc := rfl
@[simp] theorem store_fl : (s.store a v).fl = s.fl := rfl
@[simp] theorem store_status : (s.store a v).status = s.status := rfl
@[simp] theorem store_mem : (s.store a v).mem = s.mem.write a.toNat v := rfl
@[simp] theorem store_out : (s.store a v).out = s.out := rfl

@[simp] theorem emit_regs : (s.emit v).regs = s.regs := rfl
@[simp] theorem emit_pc : (s.emit v).pc = s.pc := rfl
@[simp] theorem emit_fl : (s.emit v).fl = s.fl := rfl
@[simp] theorem emit_status : (s.emit v).status = s.status := rfl
@[simp] theorem emit_mem : (s.emit v).mem = s.mem := rfl
@[simp] theorem emit_out : (s.emit v).out = s.out ++ [v] := rfl

/-! ### Reading a register after an update -/

@[simp] theorem reg_setReg_self : (s.setReg i v).reg i = v := by simp [State.reg, State.setReg]

theorem reg_setReg : (s.setReg i v).reg j = if i = j then v else s.reg j := by
  simp [State.reg, State.setReg, Vector.getElem_set, Fin.ext_iff]

theorem reg_setReg_of_ne (h : i ≠ j) : (s.setReg i v).reg j = s.reg j := by simp [reg_setReg, h]

@[simp] theorem reg_setPc : (s.setPc v).reg j = s.reg j := rfl
@[simp] theorem reg_setFl : (s.setFl v).reg j = s.reg j := rfl
@[simp] theorem reg_setStatus : (s.setStatus st).reg j = s.reg j := rfl
@[simp] theorem reg_store : (s.store a v).reg j = s.reg j := rfl
@[simp] theorem reg_emit : (s.emit v).reg j = s.reg j := rfl

/-! ### The two writes of a push -/

@[simp] theorem pushReg_pc : (s.pushReg a i).pc = s.pc := rfl
@[simp] theorem pushReg_fl : (s.pushReg a i).fl = s.fl := rfl
@[simp] theorem pushReg_status : (s.pushReg a i).status = s.status := rfl
@[simp] theorem pushReg_out : (s.pushReg a i).out = s.out := rfl
@[simp] theorem pushReg_regs : (s.pushReg a i).regs = s.regs.set Config.spIndex a := rfl
@[simp] theorem reg_pushReg : (s.pushReg a i).reg j = (s.setReg Config.spIndex a).reg j := rfl
theorem pushReg_mem :
    (s.pushReg a i).mem = s.mem.write a.toNat (if Config.spIndex = i then a else s.reg i) := by
  simp [State.pushReg, reg_setReg]

end

end Sys2Proof.Machine
end

