-- ==== Sys2Proof/Laws/Memory.lean ====
section
/-! SUPPORT. What the memory operations do (20_memory.md R31), and that each keeps the canonical form. -/

namespace Sys2Proof.Machine

@[simp] theorem Memory.read_nil (a : Nat) : Memory.read [] a = 0#8 := rfl

theorem Memory.read_cons (c : Host.Cell) (m : Memory) (a : Nat) :
    Memory.read (c :: m) a = if a = c.1 then c.2 else m.read a := by
  obtain ⟨k, v⟩ := c
  by_cases h : a = k
  · simp [Memory.read, List.lookup, h]
  · simp [Memory.read, List.lookup, h, beq_false_of_ne h]

theorem Memory.read_erase_same (m : Memory) (a : Nat) : (m.erase a).read a = 0#8 := by
  induction m with
  | nil => rfl
  | cons c m ih =>
    by_cases h : c.1 = a
    · simpa [Memory.erase, h] using ih
    · have h' : a ≠ c.1 := fun e => h e.symm
      simpa [Memory.erase, h, Memory.read_cons, h'] using ih

theorem Memory.read_erase_other {m : Memory} {a b : Nat} (h : b ≠ a) : (m.erase a).read b = m.read b := by
  induction m with
  | nil => rfl
  | cons c m ih =>
    by_cases hc : c.1 = a
    · have : b ≠ c.1 := fun e => h (e.trans hc)
      rw [Memory.read_cons, if_neg this, ← ih]
      simp [Memory.erase, hc]
    · simp only [Memory.erase, List.filter_cons, ne_eq, hc, not_false_eq_true, decide_true, if_true,
        Memory.read_cons] at ih ⊢
      rw [ih]

theorem Memory.read_insertCell_same (m : Memory) (c : Host.Cell) (h : ∀ d ∈ m, d.1 ≠ c.1) :
    (m.insertCell c).read c.1 = c.2 := by
  induction m with
  | nil => simp [Memory.insertCell, Memory.read_cons]
  | cons d m ih =>
    have hd : c.1 ≠ d.1 := fun e => h d (by simp) e.symm
    unfold Memory.insertCell
    split
    · simp [Memory.read_cons]
    · simp [Memory.read_cons, hd, ih (fun d hd => h d (by simp [hd]))]

theorem Memory.read_insertCell_other (m : Memory) (c : Host.Cell) {b : Nat} (h : b ≠ c.1) :
    (m.insertCell c).read b = m.read b := by
  induction m with
  | nil => simp [Memory.insertCell, Memory.read_cons, h]
  | cons d m ih =>
    unfold Memory.insertCell
    split
    · simp [Memory.read_cons, h]
    · simp [Memory.read_cons, ih]

theorem Memory.erase_ne (m : Memory) (a : Nat) : ∀ d ∈ m.erase a, d.1 ≠ a := by
  simp [Memory.erase]

/-- A read after a write to the same address gives the value written. -/
@[simp] theorem Memory.read_write_same (m : Memory) (a : Nat) (v : Byte) : (m.write a v).read a = v := by
  unfold Memory.write
  split
  · rename_i h; simp [h, Memory.read_erase_same]
  · exact Memory.read_insertCell_same _ (a, v) (Memory.erase_ne m a)

/-- A write leaves every other address alone. -/
theorem Memory.read_write_other {m : Memory} {a b : Nat} {v : Byte} (h : b ≠ a) :
    (m.write a v).read b = m.read b := by
  unfold Memory.write
  split
  · exact Memory.read_erase_other h
  · rw [Memory.read_insertCell_other _ (a, v) h, Memory.read_erase_other h]

theorem Memory.read_write (m : Memory) (a b : Nat) (v : Byte) :
    (m.write a v).read b = if b = a then v else m.read b := by
  split
  · rename_i h; simp [h]
  · rename_i h; exact Memory.read_write_other h

/-! ### The canonical form -/

theorem Memory.wf_nil : Memory.wf [] := by simp [Memory.wf]

theorem Memory.wf_erase {m : Memory} (a : Nat) (h : m.wf) : (m.erase a).wf :=
  ⟨h.1.filter _, fun c hc => h.2 c (List.mem_of_mem_filter hc)⟩

theorem Memory.mem_insertCell {m : Memory} {c d : Host.Cell} : d ∈ m.insertCell c ↔ d = c ∨ d ∈ m := by
  induction m with
  | nil => simp [Memory.insertCell]
  | cons e m ih =>
    unfold Memory.insertCell
    split
    · simp
    · simp [ih, or_left_comm]

theorem Memory.sorted_insertCell {m : Memory} {c : Host.Cell} (h : m.Pairwise (fun c d => c.1 < d.1))
    (hc : ∀ d ∈ m, d.1 ≠ c.1) : (m.insertCell c).Pairwise (fun c d => c.1 < d.1) := by
  induction m with
  | nil => simp [Memory.insertCell]
  | cons e m ih =>
    have he := List.pairwise_cons.mp h
    unfold Memory.insertCell
    split
    · rename_i hlt
      refine List.pairwise_cons.mpr ⟨fun d hd => ?_, h⟩
      rcases List.mem_cons.mp hd with rfl | hd
      · exact hlt
      · exact hlt.trans (he.1 d hd)
    · rename_i hlt
      have hne := hc e (by simp)
      refine List.pairwise_cons.mpr ⟨fun d hd => ?_, ih he.2 (fun d hd => hc d (by simp [hd]))⟩
      rcases Memory.mem_insertCell.mp hd with rfl | hd
      · omega
      · exact he.1 d hd

/-- Every write inside the 256 cells keeps the canonical form. -/
theorem Memory.wf_write {m : Memory} {a : Nat} (v : Byte) (ha : a < Config.memSize) (h : m.wf) :
    (m.write a v).wf := by
  have he := Memory.wf_erase a h
  unfold Memory.write
  split
  · exact he
  · rename_i hv
    refine ⟨Memory.sorted_insertCell he.1 (Memory.erase_ne m a), fun c hc => ?_⟩
    rcases Memory.mem_insertCell.mp hc with rfl | hc
    · exact ⟨ha, hv⟩
    · exact he.2 c hc

/-- Storing a sequence of bytes keeps the canonical form. -/
theorem Memory.wf_writeBytes {m : Memory} (base : Nat) (vs : List Byte) (h : m.wf) :
    (m.writeBytes base vs).wf := by
  induction vs generalizing m base with
  | nil => exact h
  | cons v vs ih =>
    unfold Memory.writeBytes
    split
    · rename_i hb; exact ih (base + 1) (Memory.wf_write v hb h)
    · exact h

theorem store_wf {s : State} (a v : Byte) (h : s.mem.wf) : (s.store a v).mem.wf :=
  Memory.wf_write v a.isLt h

theorem reset_wf : State.reset.mem.wf := Memory.wf_nil

theorem resetWith_wf (image : List Byte) : (resetWith image).mem.wf :=
  Memory.wf_writeBytes 0 image Memory.wf_nil

theorem withFetchWord_wf {s : State} (nbits w : Nat) (h : s.mem.wf) : (s.withFetchWord nbits w).mem.wf :=
  Memory.wf_writeBytes _ _ h

end Sys2Proof.Machine
end

