-- ==== Sys2Proof/Laws/Ops.lean ====
section
/-! SUPPORT. One lemma per shared operation that says everything it can do: a value where its check passes, and, for
each operation that goes on with a continuation, "if it answers next t, then one of these cases holds". -/

namespace Sys2Proof.Machine

variable {s t : State}

theorem raise_eq (s : State) (c : FaultCause) : raise s c = .next (faultedWith s c) := rfl

/-- A raise answers the state with only STATUS changed (R136). -/
theorem raise_next {c : FaultCause} : raise s c = .next t ↔ t = faultedWith s c := by
  simp only [raise, Host.Outcome.next.injEq, eq_comm]; rfl

/-! ### Checked addresses (R36) -/

theorem addr?_ofNat {n : Nat} (h : n ≤ 255) : addr? (n : Int) = some (BitVec.ofNat 8 n) := by
  have : (n : Int) ≤ 255 := by omega
  simp [addr?, this]

theorem addr?_none {v : Int} (h : v < 0 ∨ 255 < v) : addr? v = none := by
  simp only [addr?, ite_eq_right_iff, reduceCtorEq, imp_false]; omega

theorem addr?_some {v : Int} {a : Byte} (h : addr? v = some a) : v = (a.toNat : Int) := by
  simp only [addr?, Option.ite_none_right_eq_some, Option.some.injEq] at h
  obtain ⟨⟨h0, h1⟩, rfl⟩ := h
  have := Int.toNat_of_nonneg h0
  simp only [BitVec.toNat_ofInt]
  omega

theorem withAddr_ofNat {n : Nat} (h : n ≤ 255) (k : Byte → Answer) :
    withAddr s (n : Int) k = k (BitVec.ofNat 8 n) := by simp [withAddr, addr?_ofNat h]

theorem withAddr_outside {v : Int} (h : v < 0 ∨ 255 < v) (k : Byte → Answer) :
    withAddr s v k = raise s (.addressOutOfRange v) := by simp [withAddr, addr?_none h]

theorem withAddr_next {v : Int} {k : Byte → Answer} (h : withAddr s v k = .next t) :
    (∃ a : Byte, v = (a.toNat : Int) ∧ k a = .next t) ∨
      ((v < 0 ∨ 255 < v) ∧ t = faultedWith s (.addressOutOfRange v)) := by
  unfold withAddr at h
  split at h
  · rename_i a ha; exact .inl ⟨a, addr?_some ha, h⟩
  · rename_i ha
    refine .inr ⟨?_, raise_next.mp h⟩
    by_contra hv
    simp [addr?, show 0 ≤ v ∧ v ≤ 255 by omega] at ha

/-! ### pc + n (R57, R58) -/

theorem withPcPlus_inside {n : Nat} (h : s.pc.toNat + n ≤ 255) (k : Byte → Answer) :
    withPcPlus s n k = k (s.pc + BitVec.ofNat 8 n) := by
  have e : ((s.pc.toNat : Int) + (n : Int)) = ((s.pc.toNat + n : Nat) : Int) := by simp
  rw [withPcPlus, e, withAddr_ofNat h]
  congr 1
  apply BitVec.eq_of_toNat_eq
  simp

theorem withPcPlus_outside {n : Nat} (h : 255 < s.pc.toNat + n) (k : Byte → Answer) :
    withPcPlus s n k = raise s (.addressOutOfRange ((s.pc.toNat : Int) + (n : Int))) :=
  withAddr_outside (by omega) k

theorem withPcPlus_next {n : Nat} {k : Byte → Answer} (h : withPcPlus s n k = .next t) :
    (s.pc.toNat + n ≤ 255 ∧ k (s.pc + BitVec.ofNat 8 n) = .next t) ∨
      (255 < s.pc.toNat + n ∧ t = faultedWith s (.addressOutOfRange ((s.pc.toNat : Int) + (n : Int)))) := by
  by_cases hn : s.pc.toNat + n ≤ 255
  · exact .inl ⟨hn, (withPcPlus_inside hn k).symm.trans h⟩
  · have hn' : 255 < s.pc.toNat + n := by omega
    rw [withPcPlus_outside hn'] at h
    exact .inr ⟨hn', raise_next.mp h⟩

/-! ### Register operands (R54, R134) -/

theorem regOperand?_regByte (r : RegIdx) : regOperand? (regByte r) = some r := by
  revert r; decide

theorem regOperand?_some {a : Byte} {r : RegIdx} (h : regOperand? a = some r) : a = regByte r := by
  revert a r; decide

theorem regOperand?_none {a : Byte} : regOperand? a = none ↔ 7 < a.toNat := by
  simp only [regOperand?, dite_eq_right_iff, reduceCtorEq, imp_false]; omega

@[simp] theorem withReg_regByte (r : RegIdx) (k : RegIdx → Answer) : withReg s (regByte r) k = k r := by
  simp [withReg, regOperand?_regByte]

theorem withReg_illegal {a : Byte} (h : 7 < a.toNat) (k : RegIdx → Answer) :
    withReg s a k = raise s (.registerOutOfRange a) := by simp [withReg, regOperand?_none.mpr h]

theorem withReg_next {a : Byte} {k : RegIdx → Answer} (h : withReg s a k = .next t) :
    (∃ r, a = regByte r ∧ k r = .next t) ∨
      (7 < a.toNat ∧ t = faultedWith s (.registerOutOfRange a)) := by
  unfold withReg at h
  split at h
  · rename_i r hr; exact .inl ⟨r, regOperand?_some hr, h⟩
  · rename_i hr; exact .inr ⟨regOperand?_none.mp hr, raise_next.mp h⟩

@[simp] theorem regByte_toNat (r : RegIdx) : (regByte r).toNat = r.val := by revert r; decide

@[simp] theorem regIdx_not_gt (r : RegIdx) : ¬ 7 < (r : Nat) := by omega

@[simp] theorem withRegs_regByte (ra rb : RegIdx) (k : RegIdx → RegIdx → Answer) :
    withRegs s (regByte ra) (regByte rb) k = k ra rb := by simp [withRegs]

theorem withRegs_illegal_first {a : Byte} (h : 7 < a.toNat) (b : Byte) (k : RegIdx → RegIdx → Answer) :
    withRegs s a b k = raise s (.registerOutOfRange a) := withReg_illegal h _

theorem withRegs_illegal_second {b : Byte} (ra : RegIdx) (h : 7 < b.toNat) (k : RegIdx → RegIdx → Answer) :
    withRegs s (regByte ra) b k = raise s (.registerOutOfRange b) := by
  simp [withRegs, withReg_illegal h]

theorem withRegs_next {a b : Byte} {k : RegIdx → RegIdx → Answer} (h : withRegs s a b k = .next t) :
    (∃ ra rb, a = regByte ra ∧ b = regByte rb ∧ k ra rb = .next t) ∨
      (7 < a.toNat ∧ t = faultedWith s (.registerOutOfRange a)) ∨
      (a.toNat ≤ 7 ∧ 7 < b.toNat ∧ t = faultedWith s (.registerOutOfRange b)) := by
  rcases withReg_next h with ⟨ra, ea, ha⟩ | ha
  · rcases withReg_next ha with ⟨rb, eb, hb⟩ | hb
    · exact .inl ⟨ra, rb, ea, eb, hb⟩
    · refine .inr (.inr ⟨?_, hb⟩)
      have := ra.isLt
      rw [ea, regByte_toNat]; omega
  · exact .inr (.inl ha)

/-- An operand byte of 0..7 is the byte that names some register. -/
theorem regByte_of_le {a : Byte} (h : a.toNat ≤ 7) : ∃ r, a = regByte r := by
  revert a; decide

/-! ### The stack (R100, R101) -/

theorem withPushSlot_inside (h : s.sp ≠ 0#8) (k : Byte → Answer) :
    withPushSlot s k = k (s.sp - 1#8) := by
  have h0 : s.sp.toNat ≠ 0 := fun e => h (BitVec.eq_of_toNat_eq (by simpa using e))
  have e : ((s.sp.toNat : Int) - 1) = ((s.sp.toNat - 1 : Nat) : Int) := by omega
  rw [withPushSlot, e, withAddr_ofNat (by omega)]
  congr 1
  apply BitVec.eq_of_toNat_eq
  simp only [BitVec.toNat_ofNat, BitVec.toNat_sub]
  omega

theorem withPushSlot_empty (h : s.sp = 0#8) (k : Byte → Answer) :
    withPushSlot s k = raise s (.addressOutOfRange (-1)) := by
  rw [withPushSlot, h]; exact withAddr_outside (by simp) k

theorem withPushSlot_next {k : Byte → Answer} (h : withPushSlot s k = .next t) :
    (s.sp ≠ 0#8 ∧ k (s.sp - 1#8) = .next t) ∨
      (s.sp = 0#8 ∧ t = faultedWith s (.addressOutOfRange (-1))) := by
  by_cases h0 : s.sp = 0#8
  · rw [withPushSlot_empty h0] at h
    exact .inr ⟨h0, raise_next.mp h⟩
  · exact .inl ⟨h0, (withPushSlot_inside h0 k).symm.trans h⟩

/-- The state a pop into `x[r]` leaves (pc apart). -/
abbrev State.popped (s : State) (r : RegIdx) : State :=
  (s.setReg r (s.load s.sp)).setReg Config.spIndex (s.popBase r + 1#8)

theorem withPop_inside {r : RegIdx} (h : s.popBase r ≠ 255#8) (k : State → Answer) :
    withPop s r k = k (s.popped r) := by
  have h0 : (s.popBase r).toNat ≠ 255 := fun e => h (BitVec.eq_of_toNat_eq (by simpa using e))
  have e : (((s.popBase r).toNat : Int) + 1) = (((s.popBase r).toNat + 1 : Nat) : Int) := by simp
  rw [withPop, e, withAddr_ofNat (by omega)]
  simp [State.popped, BitVec.ofNat_add]

theorem withPop_full {r : RegIdx} (h : s.popBase r = 255#8) (k : State → Answer) :
    withPop s r k = raise s (.addressOutOfRange 256) := by
  rw [withPop, h]; exact withAddr_outside (by simp) _

theorem withPop_next {r : RegIdx} {k : State → Answer} (h : withPop s r k = .next t) :
    (s.popBase r ≠ 255#8 ∧ k (s.popped r) = .next t) ∨
      (s.popBase r = 255#8 ∧ t = faultedWith s (.addressOutOfRange 256)) := by
  by_cases h0 : s.popBase r = 255#8
  · rw [withPop_full h0] at h
    exact .inr ⟨h0, raise_next.mp h⟩
  · exact .inl ⟨h0, (withPop_inside h0 k).symm.trans h⟩

/-! ### The ALU frame and the conditional branch (R80, R113, R114) -/

theorem aluRegReg_next {f : Byte → Byte → Byte} {a b : Byte} (h : aluRegReg f a b s = .next t) :
    (∃ ra rb, a = regByte ra ∧ b = regByte rb ∧ s.pc.toNat ≤ 252 ∧
        t = (s.setReg ra (f (s.reg ra) (s.reg rb))).setPc (s.pc + 3#8)) ∨
      ∃ c, t = faultedWith s c := by
  rcases withRegs_next h with ⟨ra, rb, ea, eb, hk⟩ | ⟨_, rfl⟩ | ⟨_, _, rfl⟩
  · rcases withPcPlus_next hk with ⟨hp, hn⟩ | ⟨_, rfl⟩
    · exact .inl ⟨ra, rb, ea, eb, by omega, by simpa using hn.symm⟩
    · exact .inr ⟨_, rfl⟩
  · exact .inr ⟨_, rfl⟩
  · exact .inr ⟨_, rfl⟩

theorem branchIf_next {taken : Bool} {a : Byte} (h : branchIf taken a s = .next t) :
    (∃ ra, a = regByte ra ∧ taken = true ∧ t = s.setPc (s.reg ra)) ∨
      (∃ ra, a = regByte ra ∧ taken = false ∧ s.pc.toNat ≤ 253 ∧ t = s.setPc (s.pc + 2#8)) ∨
      ∃ c, t = faultedWith s c := by
  rcases withReg_next h with ⟨ra, ea, hk⟩ | ⟨_, rfl⟩
  · cases taken
    · rw [if_neg (by decide)] at hk
      rcases withPcPlus_next hk with ⟨hp, hn⟩ | ⟨_, rfl⟩
      · exact .inr (.inl ⟨ra, ea, rfl, by omega, by simpa using hn.symm⟩)
      · exact .inr (.inr ⟨_, rfl⟩)
    · exact .inl ⟨ra, ea, rfl, by simpa using hk.symm⟩
  · exact .inr (.inr ⟨_, rfl⟩)

/-! ### The instruction cycle (R57) -/

theorem withFetched_inside (h : s.pc.toNat ≤ 253) (k : Byte → Byte → Byte → Answer) :
    withFetched s k = k (s.byteAtPc 0) (s.byteAtPc 1) (s.byteAtPc 2) := by
  have e (n : Nat) (hn : n ≤ 2) : s.load (s.pc + BitVec.ofNat 8 n) = s.byteAtPc n := by
    simp only [State.load, State.byteAtPc, BitVec.toNat_add, BitVec.toNat_ofNat]
    congr 1; omega
  have e0 : s.load s.pc = s.byteAtPc 0 := rfl
  simp only [withFetched]
  rw [withPcPlus_inside (by omega), withPcPlus_inside (by omega), e 1 (by omega), e 2 (by omega), e0]

theorem withFetched_top (h : 254 ≤ s.pc.toNat) (k : Byte → Byte → Byte → Answer) :
    withFetched s k = raise s (.addressOutOfRange 256) := by
  simp only [withFetched]
  have hlt := s.pc.isLt
  rcases (show s.pc.toNat = 254 ∨ s.pc.toNat = 255 by omega) with h' | h'
  · rw [withPcPlus_inside (by omega), withPcPlus_outside (by omega), h']; rfl
  · rw [withPcPlus_outside (by omega), h']; rfl

theorem withInstr_decoded {i : Instr} {rest : List Byte} (h : s.pc.toNat ≤ 253)
    (hd : decode [s.byteAtPc 0, s.byteAtPc 1, s.byteAtPc 2] = .ok (i, rest)) (k : Instr → Answer) :
    withInstr s k = k i := by
  rw [withInstr, withFetched_inside h]; simp [hd]

theorem withInstr_next {k : Instr → Answer} (h : withInstr s k = .next t) :
    (∃ i, s.Fetches i ∧ k i = .next t) ∨
      (254 ≤ s.pc.toNat ∧ t = faultedWith s (.addressOutOfRange 256)) ∨
      (s.pc.toNat ≤ 253 ∧ (∀ i, ¬ s.Fetches i) ∧ t = faultedWith s (.unknownOpcode (s.byteAtPc 0))) := by
  by_cases hp : s.pc.toNat ≤ 253
  · rw [withInstr, withFetched_inside hp] at h
    cases hd : decode [s.byteAtPc 0, s.byteAtPc 1, s.byteAtPc 2] with
    | ok r => exact .inl ⟨r.1, ⟨hp, r.2, hd⟩, by simpa [hd] using h⟩
    | error e =>
      refine .inr (.inr ⟨hp, ?_, by simpa [hd, raise_next] using h⟩)
      rintro i ⟨_, rest, hi⟩
      simp [hd] at hi
  · rw [withInstr, withFetched_top (by omega)] at h
    exact .inr (.inl ⟨by omega, raise_next.mp h⟩)

theorem whenRunning_next {k : Answer} (h : whenRunning s k = .next t) : s.status = .running ∧ k = .next t := by
  unfold whenRunning at h
  split at h
  · exact ⟨by assumption, h⟩
  · cases h
  · cases h

/-- Everything a step can do: run the fetched instruction, or fault at the fetch or at the dispatch. -/
theorem step_next (h : step s = .next t) :
    s.status = .running ∧
      ((∃ i, s.Fetches i ∧ exec i s = .next t) ∨
        (254 ≤ s.pc.toNat ∧ t = faultedWith s (.addressOutOfRange 256)) ∨
        (s.pc.toNat ≤ 253 ∧ (∀ i, ¬ s.Fetches i) ∧
          t = faultedWith s (.unknownOpcode (s.byteAtPc 0)))) :=
  (whenRunning_next h).imp_right withInstr_next

end Sys2Proof.Machine
end

