-- ==== Sys2Proof/Laws/Exec.lean ====
section
/-! SUPPORT. Everything exec can do, said once: a fault that changes nothing but STATUS, or the completed effect of
the instruction. -/

namespace Sys2Proof.Machine

/-- The state a two-register instruction with operation `f` leaves (R80). -/
abbrev State.regReged (s : State) (f : Byte → Byte → Byte) (ra rb : RegIdx) : State :=
  (s.setReg ra (f (s.reg ra) (s.reg rb))).setPc (s.pc + 3#8)

/-- The state CALL leaves, pc apart (R110). -/
abbrev State.called (s : State) : State :=
  (s.setReg Config.linkIndex (s.pc + 2#8)).pushReg (s.sp - 1#8) Config.linkIndex

/-- `i` completes from `s` in `t`: one constructor per instruction and outcome, with the condition it completes on. -/
inductive Completes (s : State) : Instr → State → Prop where
  | hlt (hp : s.pc.toNat ≤ 254) : Completes s .hlt ((s.setStatus .halted).setPc (s.pc + 1#8))
  | ldi (r : RegIdx) (v : Byte) (hp : s.pc.toNat ≤ 252) :
      Completes s (.ldi (regByte r) v) ((s.setReg r v).setPc (s.pc + 3#8))
  | prn (r : RegIdx) (hp : s.pc.toNat ≤ 253) :
      Completes s (.prn (regByte r)) ((s.emit (s.reg r)).setPc (s.pc + 2#8))
  | add (ra rb : RegIdx) (hp : s.pc.toNat ≤ 252) :
      Completes s (.add (regByte ra) (regByte rb)) (s.regReged aluAdd ra rb)
  | mul (ra rb : RegIdx) (hp : s.pc.toNat ≤ 252) :
      Completes s (.mul (regByte ra) (regByte rb)) (s.regReged aluMul ra rb)
  | mod (ra rb : RegIdx) (hp : s.pc.toNat ≤ 252) :
      Completes s (.mod (regByte ra) (regByte rb)) (s.regReged aluMod ra rb)
  | and (ra rb : RegIdx) (hp : s.pc.toNat ≤ 252) :
      Completes s (.and (regByte ra) (regByte rb)) (s.regReged aluAnd ra rb)
  | or (ra rb : RegIdx) (hp : s.pc.toNat ≤ 252) :
      Completes s (.or (regByte ra) (regByte rb)) (s.regReged aluOr ra rb)
  | xor (ra rb : RegIdx) (hp : s.pc.toNat ≤ 252) :
      Completes s (.xor (regByte ra) (regByte rb)) (s.regReged aluXor ra rb)
  | shl (ra rb : RegIdx) (hp : s.pc.toNat ≤ 252) :
      Completes s (.shl (regByte ra) (regByte rb)) (s.regReged aluShl ra rb)
  | shr (ra rb : RegIdx) (hp : s.pc.toNat ≤ 252) :
      Completes s (.shr (regByte ra) (regByte rb)) (s.regReged aluShr ra rb)
  | not (r : RegIdx) (hp : s.pc.toNat ≤ 253) :
      Completes s (.not (regByte r)) ((s.setReg r (aluNot (s.reg r))).setPc (s.pc + 2#8))
  | cmp (ra rb : RegIdx) (hp : s.pc.toNat ≤ 252) :
      Completes s (.cmp (regByte ra) (regByte rb))
        ((s.setFl (compareFlags (s.reg ra) (s.reg rb))).setPc (s.pc + 3#8))
  | push (r : RegIdx) (hp : s.pc.toNat ≤ 253) (h0 : s.sp ≠ 0#8) :
      Completes s (.push (regByte r)) ((s.pushReg (s.sp - 1#8) r).setPc (s.pc + 2#8))
  | pop (r : RegIdx) (hp : s.pc.toNat ≤ 253) (h0 : s.popBase r ≠ 255#8) :
      Completes s (.pop (regByte r)) ((s.popped r).setPc (s.pc + 2#8))
  | call (r : RegIdx) (hp : s.pc.toNat ≤ 253) (h0 : s.sp ≠ 0#8) :
      Completes s (.call (regByte r)) (s.called.setPc (s.called.reg r))
  | ret (h0 : s.popBase Config.linkIndex ≠ 255#8) :
      Completes s .ret ((s.popped Config.linkIndex).setPc ((s.popped Config.linkIndex).reg Config.linkIndex))
  | jmp (r : RegIdx) : Completes s (.jmp (regByte r)) (s.setPc (s.reg r))
  | jeqTaken (r : RegIdx) (he : equalFlag s.fl = true) : Completes s (.jeq (regByte r)) (s.setPc (s.reg r))
  | jeqNot (r : RegIdx) (he : equalFlag s.fl = false) (hp : s.pc.toNat ≤ 253) :
      Completes s (.jeq (regByte r)) (s.setPc (s.pc + 2#8))
  | jneTaken (r : RegIdx) (he : equalFlag s.fl = false) : Completes s (.jne (regByte r)) (s.setPc (s.reg r))
  | jneNot (r : RegIdx) (he : equalFlag s.fl = true) (hp : s.pc.toNat ≤ 253) :
      Completes s (.jne (regByte r)) (s.setPc (s.pc + 2#8))

variable {s t : State}

/-- The outcome of a meaning: a precise fault, or the completed effect. -/
abbrev FaultsOrCompletes (s : State) (i : Instr) (t : State) : Prop :=
  (∃ c, t = faultedWith s c) ∨ Completes s i t

theorem execHlt_cases (h : execHlt s = .next t) : FaultsOrCompletes s .hlt t := by
  rcases withPcPlus_next h with ⟨hp, hn⟩ | ⟨_, hf⟩
  · cases hn; exact .inr (.hlt (by omega))
  · exact .inl ⟨_, hf⟩

theorem execLdi_cases {a imm : Byte} (h : execLdi a imm s = .next t) : FaultsOrCompletes s (.ldi a imm) t := by
  rcases withReg_next h with ⟨r, ha, hk⟩ | ⟨_, hf⟩
  · rcases withPcPlus_next hk with ⟨hp, hn⟩ | ⟨_, hf⟩
    · cases hn; subst ha; exact .inr (.ldi r imm (by omega))
    · exact .inl ⟨_, hf⟩
  · exact .inl ⟨_, hf⟩

theorem execPrn_cases {a : Byte} (h : execPrn a s = .next t) : FaultsOrCompletes s (.prn a) t := by
  rcases withReg_next h with ⟨r, ha, hk⟩ | ⟨_, hf⟩
  · rcases withPcPlus_next hk with ⟨hp, hn⟩ | ⟨_, hf⟩
    · cases hn; subst ha; exact .inr (.prn r (by omega))
    · exact .inl ⟨_, hf⟩
  · exact .inl ⟨_, hf⟩

theorem execAdd_cases {a b : Byte} (h : execAdd a b s = .next t) : FaultsOrCompletes s (.add a b) t := by
  rcases aluRegReg_next h with ⟨ra, rb, rfl, rfl, hp, rfl⟩ | hf
  · exact .inr (.add ra rb hp)
  · exact .inl hf

theorem execMul_cases {a b : Byte} (h : execMul a b s = .next t) : FaultsOrCompletes s (.mul a b) t := by
  rcases aluRegReg_next h with ⟨ra, rb, rfl, rfl, hp, rfl⟩ | hf
  · exact .inr (.mul ra rb hp)
  · exact .inl hf

theorem execAnd_cases {a b : Byte} (h : execAnd a b s = .next t) : FaultsOrCompletes s (.and a b) t := by
  rcases aluRegReg_next h with ⟨ra, rb, rfl, rfl, hp, rfl⟩ | hf
  · exact .inr (.and ra rb hp)
  · exact .inl hf

theorem execOr_cases {a b : Byte} (h : execOr a b s = .next t) : FaultsOrCompletes s (.or a b) t := by
  rcases aluRegReg_next h with ⟨ra, rb, rfl, rfl, hp, rfl⟩ | hf
  · exact .inr (.or ra rb hp)
  · exact .inl hf

theorem execXor_cases {a b : Byte} (h : execXor a b s = .next t) : FaultsOrCompletes s (.xor a b) t := by
  rcases aluRegReg_next h with ⟨ra, rb, rfl, rfl, hp, rfl⟩ | hf
  · exact .inr (.xor ra rb hp)
  · exact .inl hf

theorem execShl_cases {a b : Byte} (h : execShl a b s = .next t) : FaultsOrCompletes s (.shl a b) t := by
  rcases aluRegReg_next h with ⟨ra, rb, rfl, rfl, hp, rfl⟩ | hf
  · exact .inr (.shl ra rb hp)
  · exact .inl hf

theorem execShr_cases {a b : Byte} (h : execShr a b s = .next t) : FaultsOrCompletes s (.shr a b) t := by
  rcases aluRegReg_next h with ⟨ra, rb, rfl, rfl, hp, rfl⟩ | hf
  · exact .inr (.shr ra rb hp)
  · exact .inl hf

theorem execMod_cases {a b : Byte} (h : execMod a b s = .next t) : FaultsOrCompletes s (.mod a b) t := by
  rcases withRegs_next h with ⟨ra, rb, ha, hb, hk⟩ | ⟨_, hf⟩ | ⟨_, _, hf⟩
  · split at hk
    · exact .inl ⟨_, raise_next.mp hk⟩
    · rcases withPcPlus_next hk with ⟨hp, hn⟩ | ⟨_, hf⟩
      · cases hn; subst ha; subst hb
        exact .inr (.mod ra rb (by omega))
      · exact .inl ⟨_, hf⟩
  · exact .inl ⟨_, hf⟩
  · exact .inl ⟨_, hf⟩

theorem execNot_cases {a : Byte} (h : execNot a s = .next t) : FaultsOrCompletes s (.not a) t := by
  rcases withReg_next h with ⟨r, ha, hk⟩ | ⟨_, hf⟩
  · rcases withPcPlus_next hk with ⟨hp, hn⟩ | ⟨_, hf⟩
    · cases hn; subst ha; exact .inr (.not r (by omega))
    · exact .inl ⟨_, hf⟩
  · exact .inl ⟨_, hf⟩

theorem execCmp_cases {a b : Byte} (h : execCmp a b s = .next t) : FaultsOrCompletes s (.cmp a b) t := by
  rcases withRegs_next h with ⟨ra, rb, ha, hb, hk⟩ | ⟨_, hf⟩ | ⟨_, _, hf⟩
  · rcases withPcPlus_next hk with ⟨hp, hn⟩ | ⟨_, hf⟩
    · cases hn; subst ha; subst hb; exact .inr (.cmp ra rb (by omega))
    · exact .inl ⟨_, hf⟩
  · exact .inl ⟨_, hf⟩
  · exact .inl ⟨_, hf⟩

theorem execPush_cases {a : Byte} (h : execPush a s = .next t) : FaultsOrCompletes s (.push a) t := by
  rcases withReg_next h with ⟨r, ha, hk⟩ | ⟨_, hf⟩
  · rcases withPushSlot_next hk with ⟨h0, hq⟩ | ⟨_, hf⟩
    · rcases withPcPlus_next hq with ⟨hp, hn⟩ | ⟨_, hf⟩
      · cases hn; subst ha; exact .inr (.push r (by omega) h0)
      · exact .inl ⟨_, hf⟩
    · exact .inl ⟨_, hf⟩
  · exact .inl ⟨_, hf⟩

theorem execPop_cases {a : Byte} (h : execPop a s = .next t) : FaultsOrCompletes s (.pop a) t := by
  rcases withReg_next h with ⟨r, ha, hk⟩ | ⟨_, hf⟩
  · rcases withPop_next hk with ⟨h0, hq⟩ | ⟨_, hf⟩
    · rcases withPcPlus_next hq with ⟨hp, hn⟩ | ⟨_, hf⟩
      · cases hn; subst ha; exact .inr (.pop r (by omega) h0)
      · exact .inl ⟨_, hf⟩
    · exact .inl ⟨_, hf⟩
  · exact .inl ⟨_, hf⟩

theorem execCall_cases {a : Byte} (h : execCall a s = .next t) : FaultsOrCompletes s (.call a) t := by
  rcases withReg_next h with ⟨r, ha, hk⟩ | ⟨_, hf⟩
  · rcases withPcPlus_next hk with ⟨hp, hq⟩ | ⟨_, hf⟩
    · rcases withPushSlot_next hq with ⟨h0, hn⟩ | ⟨_, hf⟩
      · cases hn; subst ha; exact .inr (.call r (by omega) h0)
      · exact .inl ⟨_, hf⟩
    · exact .inl ⟨_, hf⟩
  · exact .inl ⟨_, hf⟩

theorem execRet_cases (h : execRet s = .next t) : FaultsOrCompletes s .ret t := by
  rcases withPop_next h with ⟨h0, hn⟩ | ⟨_, hf⟩
  · cases hn; exact .inr (.ret h0)
  · exact .inl ⟨_, hf⟩

theorem execJmp_cases {a : Byte} (h : execJmp a s = .next t) : FaultsOrCompletes s (.jmp a) t := by
  rcases withReg_next h with ⟨r, ha, hn⟩ | ⟨_, hf⟩
  · cases hn; subst ha; exact .inr (.jmp r)
  · exact .inl ⟨_, hf⟩

theorem execJeq_cases {a : Byte} (h : execJeq a s = .next t) : FaultsOrCompletes s (.jeq a) t := by
  rcases branchIf_next h with ⟨r, rfl, he, rfl⟩ | ⟨r, rfl, he, hp, rfl⟩ | hf
  · exact .inr (.jeqTaken r he)
  · exact .inr (.jeqNot r he hp)
  · exact .inl hf

theorem execJne_cases {a : Byte} (h : execJne a s = .next t) : FaultsOrCompletes s (.jne a) t := by
  rcases branchIf_next h with ⟨r, rfl, he, rfl⟩ | ⟨r, rfl, he, hp, rfl⟩ | hf
  · exact .inr (.jneTaken r (by simpa using he))
  · exact .inr (.jneNot r (by simpa using he) hp)
  · exact .inl hf

/-- Everything exec can do. -/
theorem exec_cases {i : Instr} (h : exec i s = .next t) : FaultsOrCompletes s i t := by
  cases i with
  | hlt => exact execHlt_cases h
  | ldi a imm => exact execLdi_cases h
  | prn a => exact execPrn_cases h
  | add a b => exact execAdd_cases h
  | mul a b => exact execMul_cases h
  | mod a b => exact execMod_cases h
  | and a b => exact execAnd_cases h
  | or a b => exact execOr_cases h
  | xor a b => exact execXor_cases h
  | not a => exact execNot_cases h
  | shl a b => exact execShl_cases h
  | shr a b => exact execShr_cases h
  | cmp a b => exact execCmp_cases h
  | push a => exact execPush_cases h
  | pop a => exact execPop_cases h
  | call a => exact execCall_cases h
  | ret => exact execRet_cases h
  | jmp a => exact execJmp_cases h
  | jeq a => exact execJeq_cases h
  | jne a => exact execJne_cases h

end Sys2Proof.Machine
end

