-- ==== Sys2Proof/Laws/HostSide.lean ====
section
/-! SUPPORT. What the host's rendering of OUT does (40_halt_load_print.md R72). -/

namespace Sys2Proof.Machine

/-- The decimal digits of a number, read back, give the number. -/
theorem foldl_toDigits (n : Nat) :
    (Nat.toDigits 10 n).foldl (fun m c => 10 * m + (c.toNat - '0'.toNat)) 0 = n := by
  induction n using Nat.strong_induction_on with
  | _ n ih =>
    rcases lt_or_ge n 10 with h | h
    · rw [Nat.toDigits_of_lt_base h]; clear ih; revert n; decide
    · have hd : ∀ d < 10, (Nat.digitChar d).toNat - '0'.toNat = d := by decide
      rw [Nat.toDigits_of_base_le (by decide) h, List.foldl_append, ih _ (by omega)]
      simp only [List.foldl_cons, List.foldl_nil, hd _ (Nat.mod_lt n (by decide))]
      omega

/-- The decimal digits of a positive number do not begin with 0. -/
theorem head_toDigits_ne_zero {n : Nat} (hn : 0 < n) : (Nat.toDigits 10 n).head? ≠ some '0' := by
  induction n using Nat.strong_induction_on with
  | _ n ih =>
    rcases lt_or_ge n 10 with h | h
    · rw [Nat.toDigits_of_lt_base h]; clear ih; interval_cases n <;> decide
    · rw [Nat.toDigits_of_base_le (by decide) h, List.head?_append_of_ne_nil _ (by simp)]
      exact ih _ (by omega) (by omega)

/-- Every line that `renderOut` makes is a numeral of its byte (R72). -/
theorem isNumeralOf_repr (v : Byte) : IsNumeralOf (Nat.repr v.toNat) v := by
  refine ⟨?_, fun c hc => ?_, ?_⟩
  · simp [Nat.repr]
  · exact Nat.isDigit_of_mem_toDigits (b := 10) (by decide) (by decide) (by simpa [Nat.repr] using hc)
  · simpa [Nat.repr] using foldl_toDigits v.toNat

/-- OUT's rendering grows with OUT, one line a byte, in the order emitted (R72). -/
theorem renderOut_append (out : List Byte) (v : Byte) :
    renderOut (out ++ [v]) = renderOut out ++ [Nat.repr v.toNat] := by
  simp [renderOut]

end Sys2Proof.Machine
end

