-- ==== Sys2Proof/Laws/PerInstr.lean ====
section
/-! SUPPORT. Statements about every instruction as syntax, one lemma per constructor. -/

namespace Sys2Proof.Laws.Arity

/-- The instruction's bytes are one opcode and as many operand bytes as the opcode's top two bits say (R50, R52,
R62: "ir[7:6] equals the operand count the catalog declares"). -/
def Statement (i : Instr) : Prop :=
  ∃ ir ops, encode i = ir :: ops ∧ isOpcode ir = true ∧ ops.length = operandCount ir

theorem hlt : Statement .hlt := ⟨_, _, rfl, rfl, rfl⟩
theorem ldi (a imm : Byte) : Statement (.ldi a imm) := ⟨_, _, rfl, rfl, rfl⟩
theorem prn (a : Byte) : Statement (.prn a) := ⟨_, _, rfl, rfl, rfl⟩
theorem add (a b : Byte) : Statement (.add a b) := ⟨_, _, rfl, rfl, rfl⟩
theorem mul (a b : Byte) : Statement (.mul a b) := ⟨_, _, rfl, rfl, rfl⟩
theorem mod (a b : Byte) : Statement (.mod a b) := ⟨_, _, rfl, rfl, rfl⟩
theorem and (a b : Byte) : Statement (.and a b) := ⟨_, _, rfl, rfl, rfl⟩
theorem or (a b : Byte) : Statement (.or a b) := ⟨_, _, rfl, rfl, rfl⟩
theorem xor (a b : Byte) : Statement (.xor a b) := ⟨_, _, rfl, rfl, rfl⟩
theorem not (a : Byte) : Statement (.not a) := ⟨_, _, rfl, rfl, rfl⟩
theorem shl (a b : Byte) : Statement (.shl a b) := ⟨_, _, rfl, rfl, rfl⟩
theorem shr (a b : Byte) : Statement (.shr a b) := ⟨_, _, rfl, rfl, rfl⟩
theorem cmp (a b : Byte) : Statement (.cmp a b) := ⟨_, _, rfl, rfl, rfl⟩
theorem push (a : Byte) : Statement (.push a) := ⟨_, _, rfl, rfl, rfl⟩
theorem pop (a : Byte) : Statement (.pop a) := ⟨_, _, rfl, rfl, rfl⟩
theorem call (a : Byte) : Statement (.call a) := ⟨_, _, rfl, rfl, rfl⟩
theorem ret : Statement .ret := ⟨_, _, rfl, rfl, rfl⟩
theorem jmp (a : Byte) : Statement (.jmp a) := ⟨_, _, rfl, rfl, rfl⟩
theorem jeq (a : Byte) : Statement (.jeq a) := ⟨_, _, rfl, rfl, rfl⟩
theorem jne (a : Byte) : Statement (.jne a) := ⟨_, _, rfl, rfl, rfl⟩

end Sys2Proof.Laws.Arity
end

