-- ==== Sys2Proof/Tests/Slice0.lean ====
section
/-! SUPPORT. Small tests, each about one step, with results from 95_test_vectors.md or by hand from the rules, and a
witness for the hypotheses of each statement of Certificates/Slice0/Obligations.lean. -/

namespace Sys2Proof.Tests

open Sys2Proof Sys2Proof.Machine

/-! ### Helpers -/

/-- The reset state with pc at `pc` and `bytes` stored there. -/
def at_ (pc : Byte) (bytes : List Byte) : State :=
  { State.reset with pc := pc, mem := Memory.writeBytes [] pc.toNat bytes }

/-- What `f` reads of the state after one step. -/
def after {α : Type} (s : State) (f : State → α) : Option α := (nextState? (step s)).map f

/-- What `f` reads of the state after one instruction. -/
def afterExec {α : Type} (i : Instr) (s : State) (f : State → α) : Option α := (nextState? (exec i s)).map f

/-- The cause and pc of a state's fault. -/
def faultOf (s : State) : Status × Byte := (s.status, s.pc)

/-! ### WellFormed: an ill-formed term for each check (R54) -/

theorem test_wf_one_operand :
    [Instr.ldi 8 0, .prn 8, .not 255, .push 8, .pop 8, .call 8, .jmp 8, .jeq 8, .jne 255].all
      (fun i => !i.WellFormed) = true := by decide

theorem test_wf_first_operand :
    [Instr.add 8 0, .mul 8 0, .mod 8 0, .and 8 0, .or 8 0, .xor 8 0, .shl 8 0, .shr 8 0, .cmp 8 0].all
      (fun i => !i.WellFormed) = true := by decide

theorem test_wf_second_operand :
    [Instr.add 0 8, .mul 0 8, .mod 0 8, .and 0 8, .or 0 8, .xor 0 8, .shl 0 8, .shr 0 8, .cmp 0 255].all
      (fun i => !i.WellFormed) = true := by decide

theorem test_wf_accepts :
    [Instr.hlt, .ret, .ldi 7 255, .prn 7, .add 7 7, .cmp 0 7, .push 7].all Instr.WellFormed = true := by decide

/-! ### Decoding: each word written out from R55 and R53 -/

theorem test_decode_hlt : decode [0b00000001#8] = .ok (.hlt, []) := rfl
theorem test_decode_ldi : decode [0b10000010#8, 0b00000011#8, 0b11111111#8] = .ok (.ldi 3#8 255#8, []) := rfl
theorem test_decode_prn : decode [0b01000111#8, 0b00000111#8] = .ok (.prn 7#8, []) := rfl
theorem test_decode_add : decode [0b10100000#8, 0b00000001#8, 0b00000010#8] = .ok (.add 1#8 2#8, []) := rfl
theorem test_decode_mul : decode [0b10100010#8, 0b00000011#8, 0b00000100#8] = .ok (.mul 3#8 4#8, []) := rfl
theorem test_decode_mod : decode [0b10100100#8, 0b00000101#8, 0b00000110#8] = .ok (.mod 5#8 6#8, []) := rfl
theorem test_decode_and : decode [0b10101000#8, 0b00000111#8, 0b00000000#8] = .ok (.and 7#8 0#8, []) := rfl
theorem test_decode_or : decode [0b10101010#8, 0b00000000#8, 0b00000111#8] = .ok (.or 0#8 7#8, []) := rfl
theorem test_decode_xor : decode [0b10101011#8, 0b00000010#8, 0b00000001#8] = .ok (.xor 2#8 1#8, []) := rfl
theorem test_decode_not : decode [0b01101001#8, 0b00000010#8, 0xFF#8] = .ok (.not 2#8, [0xFF#8]) := rfl
theorem test_decode_shl : decode [0b10101100#8, 0b00000001#8, 0b00000100#8] = .ok (.shl 1#8 4#8, []) := rfl
theorem test_decode_shr : decode [0b10101101#8, 0b00000100#8, 0b00000001#8] = .ok (.shr 4#8 1#8, []) := rfl
theorem test_decode_cmp : decode [0b10100111#8, 0b00000000#8, 0b00000001#8] = .ok (.cmp 0#8 1#8, []) := rfl
theorem test_decode_push : decode [0b01000101#8, 0b00000111#8] = .ok (.push 7#8, []) := rfl
theorem test_decode_pop : decode [0b01000110#8, 0b00000001#8] = .ok (.pop 1#8, []) := rfl
theorem test_decode_call : decode [0b01010000#8, 0b00000001#8] = .ok (.call 1#8, []) := rfl
theorem test_decode_ret : decode [0b00010001#8, 0x47#8] = .ok (.ret, [0x47#8]) := rfl
theorem test_decode_jmp : decode [0b01010100#8, 0b00000010#8] = .ok (.jmp 2#8, []) := rfl
theorem test_decode_jeq : decode [0b01010101#8, 0b00000010#8] = .ok (.jeq 2#8, []) := rfl
theorem test_decode_jne : decode [0b01010110#8, 0b00000011#8] = .ok (.jne 3#8, []) := rfl

/-- V1: unknown opcodes, among them the neighbours of known ones, 0b11 in the top bits, and HLT with ir[5] set. -/
theorem test_decode_unknown :
    [0x00#8, 0xA1#8, 0xA3#8, 0x83#8, 0x57#8, 0xFF#8, 0xC0#8, 0x21#8].all (fun ir => !isOpcode ir) = true := by decide

/-- An operand byte above 7 is kept whole, never masked to three bits (R54). -/
theorem test_decode_keeps_whole_operand : decode [0xA0#8, 0x09#8, 0x0A#8] = .ok (.add 9#8 10#8, []) := rfl

theorem test_decode_too_short : decode [0xA0#8, 0x00#8] = .error .tooShort := rfl

/-- The table's bit numbering: byte 1 is bits 15..8, byte 2 bits 23..16. -/
theorem test_decodeTableWord_ldi : decodeTableWord 24 0x080082 = some (.ldi 0#8 8#8) := by decide

theorem test_decodeTableWord_above_nbits : decodeTableWord 8 0xFF01 = some .hlt := by decide

/-- withFetchWord makes the next step run the word: LDI R0, 8 right after reset (S1). -/
theorem test_withFetchWord : after (State.reset.withFetchWord 24 0x080082) (fun t => (t.reg 0, t.pc)) = some (8#8, 3#8) := by
  decide

/-! ### One step per instruction (95_test_vectors.md V2 to V6) -/

theorem test_hlt : after (at_ 5 [0x01]) (fun t => (t.status, t.pc)) = some (.halted, 6#8) := by decide
theorem test_hlt_at_254 : after (at_ 254 [0x01]) faultOf = some (.faulted (.addressOutOfRange 256), 254#8) := by decide
theorem test_ldi_stack_pointer : after (at_ 0 [0x82, 7, 0x10]) (fun t => (t.reg 7, t.pc)) = some (16#8, 3#8) := by decide
theorem test_ldi_at_253 : after (at_ 253 [0x82, 1, 7]) (fun t => (faultOf t, t.reg 1)) =
    some ((.faulted (.addressOutOfRange 256), 253#8), 0#8) := by decide
theorem test_prn : after (at_ 0 [0x47, 7]) (fun t => (t.out, t.pc)) = some ([244#8], 2#8) := by decide
theorem test_prn_bad_register : after (at_ 0 [0x47, 9]) (fun t => (faultOf t, t.out)) =
    some ((.faulted (.registerOutOfRange 9), 0#8), []) := by decide
theorem test_add_wraps : after (((at_ 0 [0xA0, 0, 1]).setReg 0 200).setReg 1 100) (fun t => (t.reg 0, t.reg 1)) =
    some (44#8, 100#8) := by decide
theorem test_add_on_stack_pointer : after ((at_ 0 [0xA0, 7, 0]).setReg 0 20) (fun t => (t.reg 7, t.fl)) =
    some (8#8, 0#8) := by decide
theorem test_mul_low_byte : after (((at_ 0 [0xA2, 0, 1]).setReg 0 15).setReg 1 17) (fun t => t.reg 0) = some 255#8 := by
  decide
theorem test_mul_same_register : after ((at_ 0 [0xA2, 0, 0]).setReg 0 15) (fun t => t.reg 0) = some 225#8 := by decide
theorem test_mod : after (((at_ 0 [0xA4, 0, 1]).setReg 0 255).setReg 1 16) (fun t => t.reg 0) = some 15#8 := by decide
theorem test_mod_by_zero_before_fall_through :
    after (at_ 253 [0xA4, 0, 1]) faultOf = some (.faulted (.divisionByZero 253), 253#8) := by decide
theorem test_and : after (((at_ 0 [0xA8, 0, 1]).setReg 0 0xF0).setReg 1 0x3C) (fun t => t.reg 0) = some 0x30#8 := by decide
theorem test_or : after (((at_ 0 [0xAA, 0, 1]).setReg 0 0xF0).setReg 1 0x3C) (fun t => t.reg 0) = some 0xFC#8 := by decide
theorem test_xor : after (((at_ 0 [0xAB, 0, 1]).setReg 0 0xF0).setReg 1 0x3C) (fun t => t.reg 0) = some 0xCC#8 := by decide
/-- NOT's next byte is not its operand: `69 02 FF` runs normally. -/
theorem test_not : after ((at_ 0 [0x69, 2, 0xFF]).setReg 2 0xA5) (fun t => (t.reg 2, t.pc)) = some (0x5A#8, 2#8) := by decide
theorem test_shl : after (((at_ 0 [0xAC, 0, 1]).setReg 0 0x81).setReg 1 1) (fun t => t.reg 0) = some 0x02#8 := by decide
theorem test_shl_by_eight : after (((at_ 0 [0xAC, 0, 1]).setReg 0 1).setReg 1 8) (fun t => t.reg 0) = some 0#8 := by decide
theorem test_shr_logical : after (((at_ 0 [0xAD, 0, 1]).setReg 0 0x80).setReg 1 7) (fun t => t.reg 0) = some 1#8 := by decide
theorem test_shr_by_255 : after (((at_ 0 [0xAD, 0, 1]).setReg 0 0xFF).setReg 1 255) (fun t => t.reg 0) = some 0#8 := by
  decide
theorem test_cmp_unsigned : after (((at_ 0 [0xA7, 0, 1]).setReg 0 0x80).setReg 1 0x7F) (fun t => (t.fl, t.reg 0)) =
    some (2#8, 0x80#8) := by decide
theorem test_cmp_clears_old_flag : after ((at_ 0 [0xA7, 0, 0]).setFl 4) (fun t => t.fl) = some 1#8 := by decide
theorem test_push_stack_pointer : after (at_ 0 [0x45, 7]) (fun t => (t.reg 7, t.mem.read 243)) = some (243#8, 243#8) := by
  decide
theorem test_push_at_zero : after ((at_ 0 [0x45, 0]).setReg 7 0) (fun t => (faultOf t, t.reg 7)) =
    some ((.faulted (.addressOutOfRange (-1)), 0#8), 0#8) := by decide
theorem test_pop : after (((at_ 12 [0x46, 1]).setReg 7 243).store 243 1) (fun t => (t.reg 1, t.reg 7, t.mem.read 243)) =
    some (1#8, 244#8, 1#8) := by decide
theorem test_pop_stack_pointer : after (((at_ 12 [0x46, 7]).setReg 7 243).store 243 99) (fun t => (t.reg 7, t.pc)) =
    some (100#8, 14#8) := by decide
theorem test_call : after (((at_ 6 [0x50, 1]).setReg 1 9).setReg 4 77) (fun t => (t.reg 4, t.reg 7, t.mem.read 243, t.pc)) =
    some (8#8, 243#8, 8#8, 9#8) := by decide
theorem test_call_link_register : after ((at_ 3 [0x50, 4]).setReg 4 99) (fun t => (t.reg 4, t.pc)) = some (5#8, 5#8) := by
  decide
theorem test_ret : after (((at_ 14 [0x11]).setReg 7 243).store 243 8) (fun t => (t.reg 4, t.reg 7, t.pc)) =
    some (8#8, 244#8, 8#8) := by decide
theorem test_ret_at_255 : after ((at_ 0 [0x11]).setReg 7 255) faultOf = some (.faulted (.addressOutOfRange 256), 0#8) := by
  decide
theorem test_jmp_to_itself : after ((at_ 3 [0x54, 0]).setReg 0 3) (fun t => (t.pc, t.status)) = some (3#8, .running) := by
  decide
theorem test_jeq_taken : after (((at_ 12 [0x55, 2]).setReg 2 16).setFl 1) (fun t => t.pc) = some 16#8 := by decide
theorem test_jeq_bad_operand_not_taken :
    after ((at_ 0 [0x55, 9]).setFl 4) faultOf = some (.faulted (.registerOutOfRange 9), 0#8) := by decide
theorem test_jne_before_any_compare : after ((at_ 20 [0x56, 3]).setReg 3 12) (fun t => t.pc) = some 12#8 := by decide
theorem test_jne_equal : after (((at_ 20 [0x56, 3]).setReg 3 12).setFl 1) (fun t => t.pc) = some 22#8 := by decide

/-! ### Faults and their priority (V6), the step's gate, the host's side -/

theorem test_fetch_fault_before_unknown :
    after (at_ 254 [0x00]) faultOf = some (.faulted (.addressOutOfRange 256), 254#8) := by decide
theorem test_unknown_opcode : after (at_ 3 [0x00]) faultOf = some (.faulted (.unknownOpcode 0), 3#8) := by decide
theorem test_first_operand_first : after (at_ 0 [0xA0, 9, 10]) faultOf = some (.faulted (.registerOutOfRange 9), 0#8) := by
  decide
theorem test_register_before_stack :
    after ((at_ 10 [0x45, 8]).setReg 7 0) faultOf = some (.faulted (.registerOutOfRange 8), 10#8) := by decide
theorem test_halted_takes_no_step : step (State.reset.setStatus .halted) = .fault .noStepHalted := rfl
theorem test_faulted_takes_no_step :
    step (State.reset.setStatus (.faulted (.unknownOpcode 0))) = .fault (.noStepFaulted (.unknownOpcode 0)) := rfl
theorem test_image_too_long : hostReset (List.replicate 257 0) State.reset = .refused (.imageTooLong 257) := by
  rw [hostReset, if_neg (by rw [List.length_replicate]; decide), List.length_replicate]
theorem test_image_at_zero : ((resetWith [0x82, 0, 8]).mem.read 2, (resetWith [0x82, 0, 8]).mem.read 3) = (8#8, 0#8) := by
  decide
theorem test_render : renderOut [255#8, 8#8, 0#8] = ["255", "8", "0"] := by decide
theorem test_debug_at_254 : (State.bytesAtPc (at_ 254 [1, 2])) = [1#8, 2#8] := by decide
theorem test_codes : [FaultCause.unknownOpcode 0, .divisionByZero 0, .addressOutOfRange 256, .registerOutOfRange 8].map
    FaultCause.code = [1, 2, 3, 4] := by decide
theorem test_write_keeps_canonical_form :
    ((Memory.write [(3, 1#8), (9, 2#8)] 5 7#8), (Memory.write [(3, 1#8), (9, 2#8)] 3 0#8)) =
      ([(3, 1#8), (5, 7#8), (9, 2#8)], [(9, 2#8)]) := by decide
theorem test_budget_is_not_halted : runEnd 1 (at_ 0 [0x54, 0]) = .notShownToEnd := by decide

/-! ### Witnesses: for each statement with hypotheses, states and operands that meet them, each clause at a boundary -/

/-- DecodedBytesAreTheEncoding. -/
theorem witness_DecodedBytesAreTheEncoding : decode [0xAD#8, 0#8, 1#8, 9#8] = .ok (.shr 0#8 1#8, [9#8]) := rfl

/-- UnknownOpcodeFaults: both sides of the equivalence hold at pc = 253, the last place an opcode can stand. -/
theorem witness_UnknownOpcodeFaults :
    (at_ 253 [0x57]).status = .running ∧ (at_ 253 [0x57]).pc.toNat ≤ 253 ∧
    0x57#8 = (at_ 253 [0x57]).byteAtPc 0 ∧ 0x57#8 ∉ opcodes := by decide

/-- UnusedOperandBytesIgnored: an opcode for each clause. -/
theorem witness_UnusedOperandBytesIgnored : operandCount 0x11#8 = 0 ∧ operandCount 0x69#8 = 1 := by decide

/-- StepRunsTheFetchedInstruction, at pc = 253. -/
theorem witness_StepRunsTheFetchedInstruction :
    (at_ 253 [0x46, 7]).status = .running ∧ (at_ 253 [0x46, 7]).pc.toNat ≤ 253 ∧
    decode [(at_ 253 [0x46, 7]).byteAtPc 0, (at_ 253 [0x46, 7]).byteAtPc 1, (at_ 253 [0x46, 7]).byteAtPc 2] =
      .ok (.pop 7#8, [0#8]) := ⟨rfl, by decide, rfl⟩

/-- StoppedTakesNoStep, third clause: a step that halts, at pc = 253. -/
theorem witness_StoppedTakesNoStep : after (at_ 253 [0x01]) (fun t => (t.status, t.pc)) = some (.halted, 254#8) := by decide

/-- FaultIsPreciseAndTerminal: a step that faults. -/
theorem witness_FaultIsPreciseAndTerminal :
    after (at_ 0 [0xA0, 0, 8]) (fun t => t.status) = some (.faulted (.registerOutOfRange 8)) := by decide

/-- FaultsInPriorityOrder: a running state for each clause, at pc = 254 and at pc = 253. -/
theorem witness_FaultsInPriorityOrder :
    ((at_ 254 []).status = .running ∧ 254 ≤ (at_ 254 []).pc.toNat) ∧
    ((at_ 253 [0x00]).pc.toNat ≤ 253 ∧ (at_ 253 [0x00]).byteAtPc 0 ∉ opcodes) ∧
    ((at_ 253 [0x11]).pc.toNat ≤ 253 ∧ (at_ 253 [0x11]).byteAtPc 0 ∈ opcodes) := by decide

/-- AddressFaultPlaces: each place of R133, at its boundary. -/
theorem witness_AddressFaultPlaces :
    after (at_ 255 [0x01]) faultOf = some (.faulted (.addressOutOfRange 256), 255#8) ∧
    after (at_ 253 [0xA7, 0, 0]) faultOf = some (.faulted (.addressOutOfRange 256), 253#8) ∧
    after ((at_ 0 [0x50, 1]).setReg 7 0) faultOf = some (.faulted (.addressOutOfRange (-1)), 0#8) ∧
    after ((at_ 0 [0x46, 0]).setReg 7 255) faultOf = some (.faulted (.addressOutOfRange 256), 0#8) ∧
    after ((at_ 0 [0x46, 7]).store 244 255) faultOf = some (.faulted (.addressOutOfRange 256), 0#8) := by decide

/-- DivisionByZeroPlaces: the right side of the equivalence holds of a running state. -/
theorem witness_DivisionByZeroPlaces :
    (at_ 9 [0xA4, 0, 1]).status = .running ∧ (at_ 9 [0xA4, 0, 1]).Fetches (.mod (regByte 0) (regByte 1)) ∧
    (at_ 9 [0xA4, 0, 1]).reg 1 = 0#8 := ⟨rfl, ⟨by decide, [], rfl⟩, by decide⟩

/-- RegisterFaultPlaces: the right side of the equivalence holds of a running state, with operand 8. -/
theorem witness_RegisterFaultPlaces :
    (at_ 9 [0x56, 8]).Fetches (.jne 8#8) ∧ Instr.badOperand? (.jne 8#8) = some 8#8 ∧
    Instr.badOperand? (.add 7#8 8#8) = some 8#8 := ⟨⟨by decide, [0#8], rfl⟩, by decide, by decide⟩

/-- FlagsWrittenByCmpReadByBranches: each clause; two FL values with the same E that differ elsewhere. -/
theorem witness_FlagsWrittenByCmpReadByBranches :
    afterExec .hlt State.reset (fun t => t.fl) = some 0#8 ∧ (∀ a b, Instr.hlt ≠ .cmp a b) ∧
    (∀ a, Instr.hlt ≠ .jeq a ∧ Instr.hlt ≠ .jne a) ∧ (4#8).getLsbD 0 = (0#8).getLsbD 0 ∧
    (at_ 252 []).pc.toNat ≤ 252 := ⟨by decide, by simp, by simp, by decide, by decide⟩

/-- MemoryWrittenOnlyByPushAndCall: a byte that changes, for each of the two. -/
theorem witness_MemoryWrittenOnlyByPushAndCall :
    afterExec (.push 7) State.reset (fun t => decide (t.mem.read 243 ≠ State.reset.mem.read 243)) = some true ∧
    afterExec (.call 0) State.reset (fun t => decide (t.mem.read 243 ≠ State.reset.mem.read 243)) = some true := by decide

/-- OutputWrittenByPrnReadByNone: an instruction that is no PRN, and PRN at pc = 253. -/
theorem witness_OutputWrittenByPrnReadByNone :
    afterExec (.jmp 0) State.reset (fun t => t.out) = some [] ∧ (∀ a, Instr.jmp 0 ≠ .prn a) ∧
    (at_ 253 []).pc.toNat ≤ 253 := ⟨by decide, by simp, by decide⟩

/-- RegisterReadWriteTable: an instruction and register for each clause. -/
theorem witness_RegisterReadWriteTable :
    (afterExec (.add 0 1) State.reset (fun t => t.reg 2) = some 0#8 ∧ Instr.writesReg (.add 0 1) 2 = false) ∧
    (Instr.readsReg (.add 0 1) State.reset 2 = false ∧ Instr.writesReg (.add 0 1) 2 = false) ∧
    (State.reset.status = .running ∧ afterExec (.pop 0) State.reset (fun t => t.status) = some .running ∧
      Instr.readsReg (.pop 0) State.reset 0 = false ∧ Instr.writesReg (.pop 0) 0 = true) := by decide

/-- FallThroughAdvance: a JEQ not taken at pc = 253 meets every hypothesis. -/
theorem witness_FallThroughAdvance :
    (at_ 253 []).status = .running ∧ afterExec (.jeq 0) (at_ 253 []) (fun t => (t.status, t.pc)) = some (.running, 255#8) ∧
    Instr.jeq 0 ≠ .ret ∧ (∀ a, Instr.jeq 0 ≠ .call a ∧ Instr.jeq 0 ≠ .jmp a) ∧
    (at_ 253 []).fl.getLsbD 0 = false ∧ (∀ a, Instr.jeq 0 ≠ .jne a) := ⟨rfl, by decide, by simp, by simp, by decide, by simp⟩

/-- StepKeepsInvariant: a state that meets the invariant and steps, a fault among its next states. -/
theorem witness_StepKeepsInvariant :
    Inv State.reset ∧ after State.reset (fun t => t.status) = some (.faulted (.unknownOpcode 0)) :=
  ⟨⟨reset_wf, .inl rfl, trivial⟩, by decide⟩

/-- ResetAndLoad: an image of 256 bytes and one of 257. -/
theorem witness_ResetAndLoad :
    (List.replicate 256 (1#8)).length ≤ 256 ∧ 256 < (List.replicate 257 (1#8)).length := by
  rw [List.length_replicate, List.length_replicate]; decide

/-- StoppedRunStaysStopped: a run that has stopped after one step. -/
theorem witness_StoppedRunStaysStopped : (runFor 1 (at_ 0 [0x01])).status ≠ .running := by decide

/-- PushPopRoundTrip, at pc = 251 and SP = 1. -/
theorem witness_PushPopRoundTrip :
    (3 : RegIdx) ≠ 7 ∧ ((at_ 251 []).setReg 7 1).reg 7 ≠ 0#8 ∧ ((at_ 251 []).setReg 7 1).pc.toNat ≤ 251 := by decide

/-- CallReturnPair, at pc = 253: the state that the CALL leaves meets the second clause's hypotheses. -/
theorem witness_CallReturnPair :
    (at_ 253 []).pc.toNat ≤ 253 ∧ (at_ 253 []).reg 7 ≠ 0#8 ∧
    afterExec (.call 1) (at_ 253 []) (fun u => (u.reg 7, u.mem.read (((at_ 253 []).reg 7).toNat - 1))) =
      some ((at_ 253 []).reg 7 - 1#8, (at_ 253 []).pc + 2#8) := by decide

/-- PushedByteIsFetchedNext: P7's PUSH R0 at 6 with SP = 9. -/
theorem witness_PushedByteIsFetchedNext :
    ((at_ 6 [0x45, 0]).setReg 7 9).status = .running ∧ (0 : RegIdx) ≠ 7 ∧
    ((at_ 6 [0x45, 0]).setReg 7 9).Fetches (.push (regByte 0)) ∧
    (((at_ 6 [0x45, 0]).setReg 7 9).reg 7).toNat = ((at_ 6 [0x45, 0]).setReg 7 9).pc.toNat + 3 :=
  ⟨rfl, by decide, ⟨by decide, [0#8], rfl⟩, by decide⟩

/-- HaltStopsTheCore: pc = 253 for the halt (a step from there halts), pc = 254 with a HLT byte for the fault. -/
theorem witness_HaltStopsTheCore :
    after (at_ 253 [0x01]) (fun t => t.status) = some .halted ∧ (at_ 253 []).pc.toNat ≤ 253 ∧ (at_ 254 [0x01]).status = .running ∧ 254 ≤ (at_ 254 [0x01]).pc.toNat ∧
    (at_ 254 [0x01]).mem.read (at_ 254 [0x01]).pc.toNat = 0x01#8 := by decide

/-- The operand and pc hypotheses of the rules of one instruction (LdiLoadsImmediate, PrnEmitsRegister, the ten ALU
rules and RegRegRule, the stack and branch rules): the first illegal operand byte, pc = 253, and pc = 252. -/
theorem witness_operands_and_pc :
    7 < (8#8).toNat ∧ (at_ 253 []).pc.toNat = 253 ∧ (at_ 252 []).pc.toNat ≤ 252 ∧ (at_ 253 []).pc.toNat ≤ 253 := by decide

/-- RegRegRule, clause by clause at its boundary, for ADD: 8 and anything; 7 and 8; pc = 253; pc = 252. -/
theorem witness_AddWrapsModulo256 :
    afterExec (.add 8 8) (at_ 252 []) faultOf = some (.faulted (.registerOutOfRange 8), 252#8) ∧
    afterExec (.add 7 9) (at_ 253 []) faultOf = some (.faulted (.registerOutOfRange 9), 253#8) ∧
    afterExec (.add 7 7) (at_ 253 []) faultOf = some (.faulted (.addressOutOfRange 256), 253#8) ∧
    afterExec (.add 7 7) (at_ 252 []) (fun t => (t.reg 7, t.pc)) = some (232#8, 255#8) := by decide

/-- ModRemainderOrFault: a divisor 0 and a divisor that is not, at pc = 253 and 252. -/
theorem witness_ModRemainderOrFault :
    (at_ 253 []).reg 1 = 0#8 ∧ (at_ 253 []).reg 7 ≠ 0#8 ∧ (at_ 252 []).reg 7 ≠ 0#8 ∧ (at_ 252 []).pc.toNat ≤ 252 := by decide

/-- PushPreDecrements and CallThroughLinkRegister: SP = 0 and SP = 1. -/
theorem witness_push_and_call_slots :
    ((at_ 253 []).setReg 7 0).reg 7 = 0#8 ∧ ((at_ 253 []).setReg 7 1).reg 7 ≠ 0#8 ∧
    ((at_ 253 []).setReg 7 1).pc.toNat ≤ 253 := by decide

/-- PopPostIncrements and RetPopsLinkRegister: SP = 255 and 254; for POP R7, MEM[SP] = 255 and 254. -/
theorem witness_pop_and_ret_slots :
    ((0 : RegIdx) ≠ 7 ∧ ((at_ 253 []).setReg 7 255).reg 7 = 255#8) ∧ ((at_ 253 []).setReg 7 254).reg 7 ≠ 255#8 ∧
    ((at_ 0 []).store 244 255).mem.read (((at_ 0 []).store 244 255).reg 7).toNat = 255#8 ∧
    ((at_ 0 []).store 244 254).mem.read (((at_ 0 []).store 244 254).reg 7).toNat ≠ 255#8 := by decide

/-- RenderedNumeralsAreBare: the two sides of 0. -/
theorem witness_RenderedNumeralsAreBare : (10#8 : Byte) ≠ 0#8 ∧ renderOut [10#8] = ["10"] ∧ renderOut [0#8] = ["0"] := by decide

/-- JeqWhereEqual and JneWhereNotEqual: E set and E clear. -/
theorem witness_branch_flags :
    ((at_ 253 []).setFl 1).fl.getLsbD 0 = true ∧ ((at_ 253 []).setFl 4).fl.getLsbD 0 = false := by decide

/-- FrameOfRegisterResults: each of the ten instructions answers a next state. -/
theorem witness_FrameOfRegisterResults :
    [Instr.ldi 0 7, .add 0 7, .mul 0 7, .mod 0 7, .and 0 7, .or 0 7, .xor 0 7, .not 0, .shl 0 7, .shr 0 7].all
      (fun i => afterExec i State.reset (fun t => t.status) = some .running) = true := by decide

/-- FrameOfCompare, FrameOfPrintAndJumps, FrameOfHalt, FrameOfPush, FrameOfPop, FrameOfCall and FrameOfReturn: each
instruction answers a next state. -/
theorem witness_other_frames :
    [Instr.cmp 0 7, .prn 0, .jmp 0, .jeq 0, .jne 0, .push 0, .pop 0, .call 0, .ret].all
      (fun i => afterExec i State.reset (fun t => t.status) = some .running) = true ∧
    afterExec .hlt State.reset (fun t => t.status) = some .halted := by decide

/-- MemKeptBut: the address a PUSH or CALL stores to, at SP = 1 and, where there is none, SP = 0. -/
theorem witness_MemKeptBut : addr? (((1#8).toNat : Int) - 1) = some 0#8 ∧ addr? (((0#8).toNat : Int) - 1) = none := by decide

end Sys2Proof.Tests
end

section
/-! SUPPORT. The step is total on Running states (00_scope.md R6): a fault of R130 is a next state too (R136), so each
operation that goes on with a continuation answers a next state as soon as every continuation does. -/

namespace Sys2Proof.Machine

/-- The answer is a next state, neither a stop nor a refusal of the model. -/
def AnswersNext (r : Answer) : Prop := ∃ t, r = .next t

variable {s : State}

theorem answersNext_next (t : State) : AnswersNext (.next t) := ⟨t, rfl⟩

theorem answersNext_raise (s : State) (c : FaultCause) : AnswersNext (raise s c) := answersNext_next _

/-! ### The shared operations -/

theorem answersNext_withAddr {v : Int} {k : Byte → Answer} (hk : ∀ a, AnswersNext (k a)) :
    AnswersNext (withAddr s v k) := by
  unfold withAddr
  split
  · exact hk _
  · exact answersNext_raise s _

theorem answersNext_withPcPlus {n : Nat} {k : Byte → Answer} (hk : ∀ a, AnswersNext (k a)) :
    AnswersNext (withPcPlus s n k) := answersNext_withAddr hk

theorem answersNext_withPushSlot {k : Byte → Answer} (hk : ∀ a, AnswersNext (k a)) :
    AnswersNext (withPushSlot s k) := answersNext_withAddr hk

theorem answersNext_withPop {r : RegIdx} {k : State → Answer} (hk : ∀ u, AnswersNext (k u)) :
    AnswersNext (withPop s r k) := answersNext_withAddr fun _ => hk _

theorem answersNext_withReg {a : Byte} {k : RegIdx → Answer} (hk : ∀ r, AnswersNext (k r)) :
    AnswersNext (withReg s a k) := by
  unfold withReg
  split
  · exact hk _
  · exact answersNext_raise s _

theorem answersNext_withRegs {a b : Byte} {k : RegIdx → RegIdx → Answer} (hk : ∀ ra rb, AnswersNext (k ra rb)) :
    AnswersNext (withRegs s a b k) := answersNext_withReg fun ra => answersNext_withReg (hk ra)

theorem answersNext_aluRegReg (f : Byte → Byte → Byte) (a b : Byte) (s : State) : AnswersNext (aluRegReg f a b s) :=
  answersNext_withRegs fun _ _ => answersNext_withPcPlus fun _ => answersNext_next _

theorem answersNext_branchIf (taken : Bool) (a : Byte) (s : State) : AnswersNext (branchIf taken a s) := by
  refine answersNext_withReg fun r => ?_
  split
  · exact answersNext_next _
  · exact answersNext_withPcPlus fun _ => answersNext_next _

/-! ### The instructions and the instruction cycle -/

theorem answersNext_execHlt (s : State) : AnswersNext (execHlt s) := by
  unfold execHlt
  exact answersNext_withPcPlus fun _ => answersNext_next _

theorem answersNext_execRet (s : State) : AnswersNext (execRet s) := by
  unfold execRet
  exact answersNext_withPop fun _ => answersNext_next _

theorem answersNext_execMod (a b : Byte) (s : State) : AnswersNext (execMod a b s) := by
  refine answersNext_withRegs fun ra rb => ?_
  split
  · exact answersNext_raise s _
  · exact answersNext_withPcPlus fun _ => answersNext_next _

/-- Every instruction has a meaning in every state: no arm refuses, and a fault is a next state (R136). -/
theorem answersNext_exec (i : Instr) (s : State) : AnswersNext (exec i s) := by
  cases i with
  | hlt => exact answersNext_execHlt s
  | ldi a imm => exact answersNext_withReg fun _ => answersNext_withPcPlus fun _ => answersNext_next _
  | prn a => exact answersNext_withReg fun _ => answersNext_withPcPlus fun _ => answersNext_next _
  | add a b => exact answersNext_aluRegReg aluAdd a b s
  | mul a b => exact answersNext_aluRegReg aluMul a b s
  | mod a b => exact answersNext_execMod a b s
  | and a b => exact answersNext_aluRegReg aluAnd a b s
  | or a b => exact answersNext_aluRegReg aluOr a b s
  | xor a b => exact answersNext_aluRegReg aluXor a b s
  | not a => exact answersNext_withReg fun _ => answersNext_withPcPlus fun _ => answersNext_next _
  | shl a b => exact answersNext_aluRegReg aluShl a b s
  | shr a b => exact answersNext_aluRegReg aluShr a b s
  | cmp a b => exact answersNext_withRegs fun _ _ => answersNext_withPcPlus fun _ => answersNext_next _
  | push a =>
    exact answersNext_withReg fun _ => answersNext_withPushSlot fun _ => answersNext_withPcPlus fun _ =>
      answersNext_next _
  | pop a =>
    exact answersNext_withReg fun _ => answersNext_withPop fun _ => answersNext_withPcPlus fun _ => answersNext_next _
  | call a =>
    exact answersNext_withReg fun _ => answersNext_withPcPlus fun _ => answersNext_withPushSlot fun _ =>
      answersNext_next _
  | ret => exact answersNext_execRet s
  | jmp a => exact answersNext_withReg fun _ => answersNext_next _
  | jeq a => exact answersNext_branchIf _ a s
  | jne a => exact answersNext_branchIf _ a s

theorem answersNext_withFetched {k : Byte → Byte → Byte → Answer} (hk : ∀ ir op1 op2, AnswersNext (k ir op1 op2)) :
    AnswersNext (withFetched s k) := by
  unfold withFetched
  exact answersNext_withPcPlus fun _ => answersNext_withPcPlus fun _ => hk _ _ _

theorem answersNext_withInstr {k : Instr → Answer} (hk : ∀ i, AnswersNext (k i)) : AnswersNext (withInstr s k) := by
  refine answersNext_withFetched fun ir op1 op2 => ?_
  split
  · exact hk _
  · exact answersNext_raise s _

/-! ### The status gate (R17, R168) -/

theorem whenRunning_running (h : s.status = .running) (k : Answer) : whenRunning s k = k := by
  simp [whenRunning, h]

theorem whenRunning_halted (h : s.status = .halted) (k : Answer) : whenRunning s k = .fault .noStepHalted := by
  simp [whenRunning, h]

theorem whenRunning_faulted {c : FaultCause} (h : s.status = .faulted c) (k : Answer) :
    whenRunning s k = .fault (.noStepFaulted c) := by
  simp [whenRunning, h]

/-- A Running state always has a next state (R6). -/
theorem answersNext_step (h : s.status = .running) : AnswersNext (step s) := by
  rw [step, whenRunning_running h]
  exact answersNext_withInstr fun i => answersNext_exec i s

end Sys2Proof.Machine
end

section
/-! The statements of 00_scope.md. -/

namespace Sys2Proof.Proofs.Scope

open Sys2Proof.Machine

/-- Settles O8: a next state needs Running by the status gate, and Running suffices because every operation of the
step answers a next state. -/
theorem stepsExactlyWhereRunning : Obligations.StepsExactlyWhereRunning := by
  unfold Obligations.StepsExactlyWhereRunning
  intro s
  refine ⟨⟨fun ⟨t, ht⟩ => ?_, answersNext_step⟩, fun h => whenRunning_halted h _, fun c h => whenRunning_faulted h _⟩
  obtain ⟨hrun, -⟩ := step_next ht
  exact hrun

end Sys2Proof.Proofs.Scope
end

section
/-! SUPPORT. What a fetched instruction says of the byte at pc: it is the first byte of the instruction's encoding
(30_encoding.md R53, R57). -/

namespace Sys2Proof.Machine

/-- Every row of the dispatch table makes an instruction whose bytes are the row's opcode and as many operands as the
opcode counts (R52, R55). -/
theorem encode_of_mem_dispatchTable :
    ∀ e ∈ dispatchTable, ∀ a b, encode (e.2 a b) = e.1 :: [a, b].take (operandCount e.1) := by
  simp [dispatchTable, encode, operandCount]

theorem encode_of_dispatch {ir : Byte} {build : Byte → Byte → Instr} (h : dispatch ir = some build) (a b : Byte) :
    encode (build a b) = ir :: [a, b].take (operandCount ir) := by
  obtain ⟨l₁, l₂, htable, -⟩ := List.lookup_eq_some_iff.mp h
  exact encode_of_mem_dispatchTable (ir, build) (by simp [htable]) a b

theorem head_encode_of_decode {ir : Byte} {ops rest : List Byte} {i : Instr}
    (h : decode (ir :: ops) = .ok (i, rest)) : (encode i).head? = some ir := by
  cases hd : dispatch ir with
  | none => simp [decode, hd] at h
  | some build =>
    simp only [decode, hd] at h
    split at h <;> cases h <;> simp [encode_of_dispatch hd]

/-- The byte at pc is the fetched instruction's opcode. -/
theorem State.Fetches.head_encode {s : State} {i : Instr} (h : s.Fetches i) :
    (encode i).head? = some (s.byteAtPc 0) := by
  obtain ⟨-, rest, hd⟩ := h
  exact head_encode_of_decode hd

end Sys2Proof.Machine
end

section
/-! SUPPORT. What a completed instruction leaves of each piece of state (10_state.md R13 to R19). -/

namespace Sys2Proof.Machine

variable {s t : State} {i : Instr}

/-- pc + n inside memory is computed without wrapping (R58). -/
theorem toNat_pc_add {n : Nat} (h : s.pc.toNat + n ≤ 255) : (s.pc + BitVec.ofNat 8 n).toNat = s.pc.toNat + n := by
  rw [BitVec.toNat_add, BitVec.toNat_ofNat]
  omega

/-- Memory is written only by a push, at SP − 1 (R18, R100, R110). -/
theorem Completes.mem_eq (h : Completes s i t) :
    t.mem = s.mem ∨
      s.sp ≠ 0#8 ∧ (∃ b, i = .push b ∨ i = .call b) ∧ ∃ v, t.mem = s.mem.write (s.sp - 1#8).toNat v := by
  cases h with
  | push r hp h0 => exact .inr ⟨h0, ⟨_, .inl rfl⟩, _, pushReg_mem s r _⟩
  | call r hp h0 => exact .inr ⟨h0, ⟨_, .inr rfl⟩, _, pushReg_mem _ _ _⟩
  | _ => exact .inl rfl

theorem Completes.fl_eq (h : Completes s i t) :
    t.fl = s.fl ∨ ∃ ra rb, i = .cmp (regByte ra) (regByte rb) ∧ t.fl = compareFlags (s.reg ra) (s.reg rb) := by
  cases h with
  | cmp ra rb hp => exact .inr ⟨ra, rb, rfl, rfl⟩
  | _ => exact .inl rfl

theorem Completes.out_eq (h : Completes s i t) : t.out = s.out ∨ ∃ r, i = .prn (regByte r) := by
  cases h with
  | prn r hp => exact .inr ⟨r, rfl⟩
  | _ => exact .inl rfl

theorem Completes.status_eq (h : Completes s i t) :
    t.status = s.status ∨ i = .hlt ∧ s.pc.toNat ≤ 254 ∧ t = (s.setStatus .halted).setPc (s.pc + 1#8) := by
  cases h with
  | hlt hp => exact .inr ⟨rfl, hp, rfl⟩
  | _ => exact .inl rfl

/-- An instruction that completes and does not write pc itself leaves it after its last byte (R58, R59). -/
theorem Completes.pc_eq (h : Completes s i t) (hret : i ≠ .ret)
    (hjump : ∀ a, i ≠ .call a ∧ i ≠ .jmp a) (hjeq : equalFlag s.fl = true → ∀ a, i ≠ .jeq a)
    (hjne : equalFlag s.fl = false → ∀ a, i ≠ .jne a) : t.pc.toNat = s.pc.toNat + (encode i).length := by
  cases h with
  | hlt hp | push r hp h0 | pop r hp h0 | jeqNot r he hp | jneNot r he hp | ldi r v hp | prn r hp | not r hp
  | add ra rb hp | mul ra rb hp | mod ra rb hp | and ra rb hp | or ra rb hp | xor ra rb hp | shl ra rb hp
  | shr ra rb hp | cmp ra rb hp => exact toNat_pc_add (by omega)
  | ret h0 => exact absurd rfl hret
  | call r hp h0 => exact absurd rfl (hjump _).1
  | jmp r => exact absurd rfl (hjump _).2
  | jeqTaken r he => exact absurd rfl (hjeq he _)
  | jneTaken r he => exact absurd rfl (hjne he _)

end Sys2Proof.Machine
end

section
/-! SUPPORT. The cause a fetched instruction faults with is one that R130 allows. -/

namespace Sys2Proof.Machine

/-- Where the answer is a fault, its cause is one that R130 allows in `s`. -/
def FaultsLegally (s : State) (r : Answer) : Prop := ∀ t c, r = .next t → t.status = .faulted c → CauseLegal s c

variable {s : State}

/-! ### The shared operations -/

theorem faultsLegally_raise {c : FaultCause} (hc : CauseLegal s c) : FaultsLegally s (raise s c) := by
  intro t c' ht hf
  cases ht
  cases hf
  exact hc

theorem faultsLegally_next {t : State} (ht : ∀ c, t.status ≠ .faulted c) : FaultsLegally s (.next t) := by
  intro t' c h hf
  cases h
  exact absurd hf (ht c)

theorem faultsLegally_withReg {a : Byte} {k : RegIdx → Answer} (hk : ∀ r, FaultsLegally s (k r)) :
    FaultsLegally s (withReg s a k) := by
  unfold withReg
  split
  · exact hk _
  · rename_i ha
    exact faultsLegally_raise (regOperand?_none.mp ha)

theorem faultsLegally_withRegs {a b : Byte} {k : RegIdx → RegIdx → Answer}
    (hk : ∀ ra rb, FaultsLegally s (k ra rb)) : FaultsLegally s (withRegs s a b k) :=
  faultsLegally_withReg fun ra => faultsLegally_withReg (hk ra)

/-- With pc at most 253 the fall-through address of an instruction of at most three bytes leaves 0..255 only as 256. -/
theorem faultsLegally_withPcPlus {n : Nat} {k : Byte → Answer} (hn : n ≤ 3) (hp : s.pc.toNat ≤ 253)
    (hk : ∀ a, FaultsLegally s (k a)) : FaultsLegally s (withPcPlus s n k) := by
  by_cases h : s.pc.toNat + n ≤ 255
  · rw [withPcPlus_inside h]
    exact hk _
  · rw [withPcPlus_outside (by omega)]
    exact faultsLegally_raise (.inr (by omega))

theorem faultsLegally_withPushSlot {k : Byte → Answer} (hk : ∀ a, FaultsLegally s (k a)) :
    FaultsLegally s (withPushSlot s k) := by
  by_cases h : s.sp = 0#8
  · rw [withPushSlot_empty h]
    exact faultsLegally_raise (.inl rfl)
  · rw [withPushSlot_inside h]
    exact hk _

theorem faultsLegally_withPop {r : RegIdx} {k : State → Answer} (hk : FaultsLegally s (k (s.popped r))) :
    FaultsLegally s (withPop s r k) := by
  by_cases h : s.popBase r = 255#8
  · rw [withPop_full h]
    exact faultsLegally_raise (.inr rfl)
  · rw [withPop_inside h]
    exact hk

/-! ### The instructions, from a Running state with pc at most 253 -/

theorem faultsLegally_execHlt (hp : s.pc.toNat ≤ 253) : FaultsLegally s (execHlt s) :=
  faultsLegally_withPcPlus (by decide) hp fun _ => faultsLegally_next (by simp)

section
variable (hs : s.status = .running) (hp : s.pc.toNat ≤ 253)
include hs

/-- A state whose STATUS is still that of the Running `s` is no fault. -/
theorem faultsLegally_next_of_status_eq {t : State} (ht : t.status = s.status) : FaultsLegally s (.next t) :=
  faultsLegally_next (by simp [ht, hs])

theorem faultsLegally_execJmp (a : Byte) : FaultsLegally s (execJmp a s) :=
  faultsLegally_withReg fun _ => faultsLegally_next_of_status_eq hs rfl

theorem faultsLegally_execRet : FaultsLegally s (execRet s) :=
  faultsLegally_withPop (faultsLegally_next_of_status_eq hs rfl)

include hp

/-- An instruction that keeps STATUS and falls through at most three bytes. -/
theorem faultsLegally_fallThrough {n : Nat} {u : State} (hn : n ≤ 3) (hu : u.status = s.status) :
    FaultsLegally s (withPcPlus s n fun next => .next (u.setPc next)) :=
  faultsLegally_withPcPlus hn hp fun _ => faultsLegally_next_of_status_eq hs hu

theorem faultsLegally_aluRegReg (f : Byte → Byte → Byte) (a b : Byte) : FaultsLegally s (aluRegReg f a b s) :=
  faultsLegally_withRegs fun _ _ => faultsLegally_fallThrough hs hp (by decide) rfl

theorem faultsLegally_execMod (a b : Byte) (hop : s.byteAtPc 0 = 0xA4#8) : FaultsLegally s (execMod a b s) := by
  refine faultsLegally_withRegs fun ra rb => ?_
  split
  · exact faultsLegally_raise ⟨rfl, hop⟩
  · exact faultsLegally_fallThrough hs hp (by decide) rfl

theorem faultsLegally_branchIf (taken : Bool) (a : Byte) : FaultsLegally s (branchIf taken a s) := by
  refine faultsLegally_withReg fun r => ?_
  split
  · exact faultsLegally_next_of_status_eq hs rfl
  · exact faultsLegally_fallThrough hs hp (by decide) rfl

theorem faultsLegally_execPush (a : Byte) : FaultsLegally s (execPush a s) :=
  faultsLegally_withReg fun _ => faultsLegally_withPushSlot fun _ => faultsLegally_fallThrough hs hp (by decide) rfl

theorem faultsLegally_execPop (a : Byte) : FaultsLegally s (execPop a s) :=
  faultsLegally_withReg fun _ => faultsLegally_withPop <| faultsLegally_fallThrough hs hp (by decide) rfl

theorem faultsLegally_execCall (a : Byte) : FaultsLegally s (execCall a s) :=
  faultsLegally_withReg fun _ => faultsLegally_withPcPlus (by decide) hp fun _ => faultsLegally_withPushSlot fun _ =>
    faultsLegally_next_of_status_eq hs rfl

end

/-- A fetched instruction faults only with a cause that R130 allows: for MOD this needs the opcode at pc. -/
theorem faultsLegally_exec {i : Instr} (hs : s.status = .running) (hi : s.Fetches i) : FaultsLegally s (exec i s) := by
  have hp := hi.1
  have hop := hi.head_encode
  cases i with
  | hlt => exact faultsLegally_execHlt hp
  | ldi a imm => exact faultsLegally_withReg fun _ => faultsLegally_fallThrough hs hp (by decide) rfl
  | prn a => exact faultsLegally_withReg fun _ => faultsLegally_fallThrough hs hp (by decide) rfl
  | add a b => exact faultsLegally_aluRegReg hs hp aluAdd a b
  | mul a b => exact faultsLegally_aluRegReg hs hp aluMul a b
  | mod a b => exact faultsLegally_execMod hs hp a b (Option.some.inj hop).symm
  | and a b => exact faultsLegally_aluRegReg hs hp aluAnd a b
  | or a b => exact faultsLegally_aluRegReg hs hp aluOr a b
  | xor a b => exact faultsLegally_aluRegReg hs hp aluXor a b
  | not a => exact faultsLegally_withReg fun _ => faultsLegally_fallThrough hs hp (by decide) rfl
  | shl a b => exact faultsLegally_aluRegReg hs hp aluShl a b
  | shr a b => exact faultsLegally_aluRegReg hs hp aluShr a b
  | cmp a b => exact faultsLegally_withRegs fun _ _ => faultsLegally_fallThrough hs hp (by decide) rfl
  | push a => exact faultsLegally_execPush hs hp a
  | pop a => exact faultsLegally_execPop hs hp a
  | call a => exact faultsLegally_execCall hs hp a
  | ret => exact faultsLegally_execRet hs
  | jmp a => exact faultsLegally_execJmp hs a
  | jeq a => exact faultsLegally_branchIf hs hp _ a
  | jne a => exact faultsLegally_branchIf hs hp _ a

end Sys2Proof.Machine
end

section
/-! SUPPORT. The invariant, piece by piece. -/

namespace Sys2Proof.Machine

variable {s t : State} {i : Instr}

theorem flLegal_compareFlags (va vb : Byte) : FlLegal (compareFlags va vb) := by
  unfold compareFlags
  split_ifs
  · exact .inr (.inl rfl)
  · exact .inr (.inr (.inl rfl))
  · exact .inr (.inr (.inr rfl))

/-- A fault keeps the invariant as soon as its cause is legal: it changes nothing but STATUS (R136). -/
theorem inv_faultedWith {c : FaultCause} (h : Inv s) (hc : CauseLegal s c) : Inv (faultedWith s c) := by
  obtain ⟨hmem, hfl, -⟩ := h
  exact ⟨hmem, hfl, by cases c <;> exact hc⟩

theorem Completes.mem_wf (hc : Completes s i t) (h : s.mem.wf) : t.mem.wf := by
  rcases hc.mem_eq with hm | ⟨-, -, v, hm⟩
  · rwa [hm]
  · rw [hm]
    exact Memory.wf_write v (s.sp - 1#8).isLt h

theorem Completes.flLegal (hc : Completes s i t) (h : FlLegal s.fl) : FlLegal t.fl := by
  rcases hc.fl_eq with hf | ⟨ra, rb, -, hf⟩
  · rwa [hf]
  · rw [hf]
    exact flLegal_compareFlags _ _

/-- Only a HLT halts, and it leaves pc one past its own opcode. -/
theorem Completes.statusLegal (hc : Completes s i t) (hs : s.status = .running) (hi : s.Fetches i) :
    StatusLegal t := by
  rcases hc.status_eq with hst | ⟨rfl, hp, rfl⟩
  · simp [StatusLegal, hst, hs]
  · have hop : 0x01#8 = s.mem.read s.pc.toNat := Option.some.inj hi.head_encode
    have hpc : (s.pc + 1#8).toNat = s.pc.toNat + 1 := toNat_pc_add (by omega)
    simp [StatusLegal, hpc, ← hop]

theorem exec_keeps_inv (h : Inv s) (hs : s.status = .running) (hi : s.Fetches i) (ht : exec i s = .next t) :
    Inv t := by
  rcases exec_cases ht with ⟨c, rfl⟩ | hc
  · exact inv_faultedWith h (faultsLegally_exec hs hi _ c ht rfl)
  · obtain ⟨hmem, hfl, -⟩ := h
    exact ⟨hc.mem_wf hmem, hc.flLegal hfl, hc.statusLegal hs hi⟩

end Sys2Proof.Machine
end

section
/-! SUPPORT. A change of the state that an instruction does not see commutes with the instruction: the one argument
behind the noninterference statements on FL, OUT and the registers (10_state.md R13, R16, R19). -/

namespace Sys2Proof.Machine

theorem equalFlag_eq_getLsbD (fl : Byte) : equalFlag fl = fl.getLsbD 0 := by
  revert fl; decide

@[simp] theorem names_regByte (ra r : RegIdx) : names (regByte ra) r = decide (ra = r) := by
  simp [names, Fin.ext_iff]

/-- The two writes of a push, with the byte stored written out. -/
theorem pushReg_eq (s : State) (sp1 : Byte) (r : RegIdx) :
    s.pushReg sp1 r = (s.setReg Config.spIndex sp1).store sp1 (if Config.spIndex = r then sp1 else s.reg r) := by
  simp [State.pushReg, reg_setReg]

/-- `f` changes nothing that `i`, run from `s`, looks at, and commutes with everything that `i` writes; which registers
those are is said by the columns of R13. -/
structure Unseen (f : State → State) (i : Instr) (s : State) : Prop where
  pc : (f s).pc = s.pc
  mem : (f s).mem = s.mem
  reads : ∀ r, Instr.readsReg i s r = true → (f s).reg r = s.reg r
  flag : (∃ a, i = .jeq a ∨ i = .jne a) → equalFlag (f s).fl = equalFlag s.fl
  setStatus : ∀ u st, (f u).setStatus st = f (u.setStatus st)
  setPc : ∀ u v, (f u).setPc v = f (u.setPc v)
  store : ∀ u a v, (f u).store a v = f (u.store a v)
  writes : ∀ r, Instr.writesReg i r = true → ∀ u v, (f u).setReg r v = f (u.setReg r v)
  setFl : (∃ a b, i = .cmp a b) → ∀ u v, (f u).setFl v = f (u.setFl v)
  emit : (∃ a, i = .prn a) → ∀ u v, (f u).emit v = f (u.emit v)

namespace Unseen

variable {f : State → State} {i : Instr} {s : State}

/-! ### The shared operations -/

theorem raise_comm (h : Unseen f i s) (c : FaultCause) : raise (f s) c = mapNext f (raise s c) :=
  congrArg Host.Outcome.next (h.setStatus s _)

theorem withAddr_comm (h : Unseen f i s) {v : Int} {k k' : Byte → Answer} (hk : ∀ a, k' a = mapNext f (k a)) :
    withAddr (f s) v k' = mapNext f (withAddr s v k) := by
  unfold withAddr
  split
  · exact hk _
  · exact h.raise_comm _

theorem withPcPlus_comm (h : Unseen f i s) {n : Nat} {k k' : Byte → Answer} (hk : ∀ a, k' a = mapNext f (k a)) :
    withPcPlus (f s) n k' = mapNext f (withPcPlus s n k) := by
  rw [withPcPlus, h.pc]
  exact h.withAddr_comm hk

theorem withReg_comm (h : Unseen f i s) {a : Byte} {k k' : RegIdx → Answer}
    (hk : ∀ r, a = regByte r → k' r = mapNext f (k r)) : withReg (f s) a k' = mapNext f (withReg s a k) := by
  unfold withReg
  split
  · rename_i r hr
    exact hk r (regOperand?_some hr)
  · exact h.raise_comm _

theorem withRegs_comm (h : Unseen f i s) {a b : Byte} {k k' : RegIdx → RegIdx → Answer}
    (hk : ∀ ra rb, a = regByte ra → b = regByte rb → k' ra rb = mapNext f (k ra rb)) :
    withRegs (f s) a b k' = mapNext f (withRegs s a b k) :=
  h.withReg_comm fun ra ha => h.withReg_comm fun rb hb => hk ra rb ha hb

theorem withPushSlot_comm (h : Unseen f i s) (hsp : (f s).sp = s.sp) {k k' : Byte → Answer}
    (hk : ∀ a, k' a = mapNext f (k a)) : withPushSlot (f s) k' = mapNext f (withPushSlot s k) := by
  rw [withPushSlot, hsp]
  exact h.withAddr_comm hk

/-- The last step of an instruction whose effect `f` commutes with: the fall-through. -/
theorem fallThrough (h : Unseen f i s) {n : Nat} {u u' : State} (hu : u' = f u) :
    withPcPlus (f s) n (fun next => .next (u'.setPc next)) =
      mapNext f (withPcPlus s n fun next => .next (u.setPc next)) :=
  h.withPcPlus_comm fun next => by rw [hu, h.setPc]; rfl

/-- The last step of an instruction that jumps to a register it reads. -/
theorem jump (h : Unseen f i s) {u : State} {r : RegIdx} (hr : (f u).reg r = u.reg r) :
    Host.Outcome.next ((f u).setPc ((f u).reg r)) = mapNext f (.next (u.setPc (u.reg r))) := by
  rw [hr, h.setPc]
  rfl

theorem load (h : Unseen f i s) (a : Byte) : (f s).load a = s.load a := by rw [State.load, h.mem]; rfl

/-- A register that `f` leaves alone, or that has just been written, reads the same under `f`. -/
theorem reg_setReg_eq (h : Unseen f i s) {u : State} {r j : RegIdx} (hw : Instr.writesReg i r = true) (v : Byte)
    (hj : r ≠ j → (f u).reg j = u.reg j) : (f (u.setReg r v)).reg j = (u.setReg r v).reg j := by
  rw [← h.writes r hw, reg_setReg, reg_setReg]
  split
  · rfl
  · rename_i hne
    exact hj hne

theorem withPop_comm (h : Unseen f i s) (hsp : (f s).sp = s.sp) {r : RegIdx}
    (hr : Instr.writesReg i r = true) (h7 : Instr.writesReg i Config.spIndex = true) {k k' : State → Answer}
    (hk : ∀ v sp1, k' (f ((s.setReg r v).setReg Config.spIndex sp1)) =
      mapNext f (k ((s.setReg r v).setReg Config.spIndex sp1))) :
    withPop (f s) r k' = mapNext f (withPop s r k) := by
  have hbase : (f s).popBase r = s.popBase r := by simp only [State.popBase, hsp, h.load]
  rw [withPop, hbase, hsp, h.load]
  refine h.withAddr_comm fun sp1 => ?_
  rw [h.writes r hr, h.writes _ h7]
  exact hk _ _

theorem pushReg_comm (h : Unseen f i s) (h7 : Instr.writesReg i Config.spIndex = true) {u : State} {r : RegIdx}
    (hr : (f u).reg r = u.reg r) (sp1 : Byte) : (f u).pushReg sp1 r = f (u.pushReg sp1 r) := by
  rw [pushReg_eq, pushReg_eq, hr, h.writes _ h7, h.store]

theorem aluRegReg_comm (h : Unseen f i s) {a b : Byte} (g : Byte → Byte → Byte)
    (hread : ∀ r, (names a r || names b r) = true → Instr.readsReg i s r = true)
    (hwrite : ∀ r, names a r = true → Instr.writesReg i r = true) :
    aluRegReg g a b (f s) = mapNext f (aluRegReg g a b s) := by
  refine h.withRegs_comm fun ra rb ha hb => h.fallThrough ?_
  rw [h.reads ra (hread ra (by simp [ha])), h.reads rb (hread rb (by simp [hb])), h.writes ra (hwrite ra (by simp [ha]))]

theorem branchIf_comm (h : Unseen f i s) {taken : Bool} {a : Byte}
    (hread : taken = true → ∀ r, names a r = true → Instr.readsReg i s r = true) :
    branchIf taken a (f s) = mapNext f (branchIf taken a s) := by
  refine h.withReg_comm fun r ha => ?_
  split
  · rename_i ht
    exact h.jump (h.reads r (hread ht r (by simp [ha])))
  · exact h.fallThrough rfl

/-! ### The instructions -/

theorem execLdi_comm {a imm : Byte} (h : Unseen f (.ldi a imm) s) : execLdi a imm (f s) = mapNext f (execLdi a imm s) :=
  h.withReg_comm fun r ha => h.fallThrough (h.writes r (by simp [Instr.writesReg, ha]) _ _)

theorem execPrn_comm {a : Byte} (h : Unseen f (.prn a) s) : execPrn a (f s) = mapNext f (execPrn a s) := by
  refine h.withReg_comm fun r ha => h.fallThrough ?_
  rw [h.reads r (by simp [Instr.readsReg, ha]), h.emit ⟨a, rfl⟩]

theorem execMod_comm {a b : Byte} (h : Unseen f (.mod a b) s) : execMod a b (f s) = mapNext f (execMod a b s) := by
  refine h.withRegs_comm fun ra rb ha hb => ?_
  rw [h.reads ra (by simp [Instr.readsReg, ha]), h.reads rb (by simp [Instr.readsReg, hb])]
  split
  · rw [h.pc]
    exact h.raise_comm _
  · exact h.fallThrough (h.writes ra (by simp [Instr.writesReg, ha]) _ _)

theorem execNot_comm {a : Byte} (h : Unseen f (.not a) s) : execNot a (f s) = mapNext f (execNot a s) := by
  refine h.withReg_comm fun r ha => h.fallThrough ?_
  rw [h.reads r (by simp [Instr.readsReg, ha]), h.writes r (by simp [Instr.writesReg, ha])]

theorem execCmp_comm {a b : Byte} (h : Unseen f (.cmp a b) s) : execCmp a b (f s) = mapNext f (execCmp a b s) := by
  refine h.withRegs_comm fun ra rb ha hb => h.fallThrough ?_
  rw [h.reads ra (by simp [Instr.readsReg, ha]), h.reads rb (by simp [Instr.readsReg, hb]), h.setFl ⟨a, b, rfl⟩]

theorem execPush_comm {a : Byte} (h : Unseen f (.push a) s) : execPush a (f s) = mapNext f (execPush a s) := by
  have hsp : (f s).sp = s.sp := h.reads 7 (by simp [Instr.readsReg])
  exact h.withReg_comm fun r ha => h.withPushSlot_comm hsp fun sp1 => h.fallThrough <|
    h.pushReg_comm (by simp [Instr.writesReg]) (h.reads r (by simp [Instr.readsReg, ha])) sp1

theorem execPop_comm {a : Byte} (h : Unseen f (.pop a) s) : execPop a (f s) = mapNext f (execPop a s) := by
  have hsp : (f s).sp = s.sp := h.reads 7 (by simp [Instr.readsReg])
  exact h.withReg_comm fun r ha => h.withPop_comm hsp (by simp [Instr.writesReg, ha]) (by simp [Instr.writesReg])
    fun _ _ => h.fallThrough rfl

theorem execRet_comm (h : Unseen f .ret s) : execRet (f s) = mapNext f (execRet s) := by
  have hsp : (f s).sp = s.sp := h.reads 7 (by simp [Instr.readsReg])
  have h4 : Instr.writesReg .ret Config.linkIndex = true := rfl
  have h7 : Instr.writesReg .ret Config.spIndex = true := rfl
  exact h.withPop_comm hsp h4 h7 fun v sp1 => h.jump <|
    h.reg_setReg_eq h7 sp1 fun _ => h.reg_setReg_eq h4 v fun hne => absurd rfl hne

/-- CALL reads `x[a]` after its own two writes, so `x[a]` may also be one of the registers it has written (D9). -/
theorem execCall_comm {a : Byte} (h : Unseen f (.call a) s) : execCall a (f s) = mapNext f (execCall a s) := by
  have hsp : (f s).sp = s.sp := h.reads 7 (by simp [Instr.readsReg])
  have h4 : Instr.writesReg (.call a) Config.linkIndex = true := rfl
  have h7 : Instr.writesReg (.call a) Config.spIndex = true := rfl
  refine h.withReg_comm fun r ha => h.withPcPlus_comm fun ret => h.withPushSlot_comm hsp fun sp1 => ?_
  have hlink : (f (s.setReg Config.linkIndex ret)).reg Config.linkIndex =
      (s.setReg Config.linkIndex ret).reg Config.linkIndex := h.reg_setReg_eq h4 ret fun hne => absurd rfl hne
  have hpush := h.pushReg_comm h7 hlink sp1
  rw [h.writes _ h4, hpush]
  refine h.jump ?_
  rw [← hpush, reg_pushReg, reg_pushReg, h.writes _ h7]
  exact h.reg_setReg_eq h7 sp1 fun _ => h.reg_setReg_eq h4 ret fun _ => h.reads r (by simp [Instr.readsReg, ha])

theorem execJmp_comm {a : Byte} (h : Unseen f (.jmp a) s) : execJmp a (f s) = mapNext f (execJmp a s) :=
  h.withReg_comm fun r ha => h.jump (h.reads r (by simp [Instr.readsReg, ha]))

theorem execHlt_comm (h : Unseen f .hlt s) : execHlt (f s) = mapNext f (execHlt s) :=
  h.withPcPlus_comm fun next => by rw [h.setStatus, h.setPc]; rfl

theorem execJeq_comm {a : Byte} (h : Unseen f (.jeq a) s) : execJeq a (f s) = mapNext f (execJeq a s) := by
  rw [execJeq, h.flag ⟨a, .inl rfl⟩]
  refine h.branchIf_comm fun ht r hr => ?_
  rw [equalFlag_eq_getLsbD] at ht
  simp [Instr.readsReg, ht, hr]

theorem execJne_comm {a : Byte} (h : Unseen f (.jne a) s) : execJne a (f s) = mapNext f (execJne a s) := by
  rw [execJne, h.flag ⟨a, .inr rfl⟩]
  refine h.branchIf_comm fun ht r hr => ?_
  rw [equalFlag_eq_getLsbD] at ht
  simpa [Instr.readsReg, hr] using ht

/-- What an instruction does not see changes nothing else in its answer. -/
theorem exec_comm (h : Unseen f i s) : exec i (f s) = mapNext f (exec i s) := by
  cases i with
  | hlt => exact h.execHlt_comm
  | ldi a imm => exact h.execLdi_comm
  | prn a => exact h.execPrn_comm
  | add a b => exact h.aluRegReg_comm aluAdd (fun _ hr => hr) (fun _ hw => hw)
  | mul a b => exact h.aluRegReg_comm aluMul (fun _ hr => hr) (fun _ hw => hw)
  | mod a b => exact h.execMod_comm
  | and a b => exact h.aluRegReg_comm aluAnd (fun _ hr => hr) (fun _ hw => hw)
  | or a b => exact h.aluRegReg_comm aluOr (fun _ hr => hr) (fun _ hw => hw)
  | xor a b => exact h.aluRegReg_comm aluXor (fun _ hr => hr) (fun _ hw => hw)
  | not a => exact h.execNot_comm
  | shl a b => exact h.aluRegReg_comm aluShl (fun _ hr => hr) (fun _ hw => hw)
  | shr a b => exact h.aluRegReg_comm aluShr (fun _ hr => hr) (fun _ hw => hw)
  | cmp a b => exact h.execCmp_comm
  | push a => exact h.execPush_comm
  | pop a => exact h.execPop_comm
  | call a => exact h.execCall_comm
  | ret => exact h.execRet_comm
  | jmp a => exact h.execJmp_comm
  | jeq a => exact h.execJeq_comm
  | jne a => exact h.execJne_comm

end Unseen
end Sys2Proof.Machine
end

section
/-! SUPPORT. The changes of FL, OUT and one register as unseen changes. -/

namespace Sys2Proof.Machine

/-! ### Two writes to the registers -/

@[simp] theorem setReg_setReg_same (s : State) (r : RegIdx) (v w : Byte) :
    (s.setReg r v).setReg r w = s.setReg r w := by
  simp [State.setReg]

theorem setReg_comm (s : State) {r q : RegIdx} (h : r ≠ q) (v w : Byte) :
    (s.setReg r v).setReg q w = (s.setReg q w).setReg r v := by
  simp [State.setReg, Vector.set_comm _ _ (Fin.val_ne_of_ne h)]

/-- FL is unseen but by CMP, which writes it, and by JEQ and JNE, which read E (R16). -/
theorem unseen_setFl {i : Instr} {s : State} {v : Byte} (hcmp : ∀ a b, i ≠ .cmp a b)
    (hflag : (∃ a, i = .jeq a ∨ i = .jne a) → v.getLsbD 0 = s.fl.getLsbD 0) :
    Unseen (fun t => t.setFl v) i s where
  pc := rfl
  mem := rfl
  reads _ _ := rfl
  flag h := by simpa only [setFl_fl, equalFlag_eq_getLsbD] using hflag h
  setStatus _ _ := rfl
  setPc _ _ := rfl
  store _ _ _ := rfl
  writes _ _ _ _ := rfl
  setFl := fun ⟨a, b, h⟩ => absurd h (hcmp a b)
  emit _ _ _ := rfl

/-- OUT with bytes put before it. -/
def State.prependOut (o : List Byte) (s : State) : State := { s with out := o ++ s.out }

/-- What stood in OUT before is unseen by every instruction: PRN appends after it (R19). -/
theorem unseen_prependOut (o : List Byte) (i : Instr) (s : State) : Unseen (State.prependOut o) i s where
  pc := rfl
  mem := rfl
  reads _ _ := rfl
  flag _ := rfl
  setStatus _ _ := rfl
  setPc _ _ := rfl
  store _ _ _ := rfl
  writes _ _ _ _ := rfl
  setFl _ _ _ := rfl
  emit _ u v := by simp [State.prependOut, State.emit]

/-- A register in neither column of R13 is unseen. -/
theorem unseen_setReg {i : Instr} {s : State} {r : RegIdx} (v : Byte) (hread : Instr.readsReg i s r = false)
    (hwrite : Instr.writesReg i r = false) : Unseen (fun t => t.setReg r v) i s where
  pc := rfl
  mem := rfl
  reads q hq := reg_setReg_of_ne s r q v (by rintro rfl; simp [hread] at hq)
  flag _ := rfl
  setStatus _ _ := rfl
  setPc _ _ := rfl
  store _ _ _ := rfl
  writes q hq u w := setReg_comm u (by rintro rfl; simp [hwrite] at hq) v w
  setFl _ _ _ := rfl
  emit _ _ _ := rfl

end Sys2Proof.Machine
end

section
/-! SUPPORT. What exec answers where an instruction completes, and what it does with the registers (10_state.md R13). -/

namespace Sys2Proof.Machine

variable {s t : State} {i : Instr}

/-! ### Completed results -/

theorem exec_prn (r : RegIdx) (hp : s.pc.toNat ≤ 253) :
    exec (.prn (regByte r)) s = .next ((s.emit (s.reg r)).setPc (s.pc + 2#8)) := by
  simp [exec, execPrn, withPcPlus_inside (show s.pc.toNat + 2 ≤ 255 by omega)]

theorem exec_cmp (ra rb : RegIdx) (hp : s.pc.toNat ≤ 252) :
    exec (.cmp (regByte ra) (regByte rb)) s =
      .next ((s.setFl (compareFlags (s.reg ra) (s.reg rb))).setPc (s.pc + 3#8)) := by
  simp [exec, execCmp, withPcPlus_inside (show s.pc.toNat + 3 ≤ 255 by omega)]

theorem exec_ldi (r : RegIdx) (imm : Byte) (hp : s.pc.toNat ≤ 252) :
    exec (.ldi (regByte r) imm) s = .next ((s.setReg r imm).setPc (s.pc + 3#8)) := by
  simp [exec, execLdi, immediate, withPcPlus_inside (show s.pc.toNat + 3 ≤ 255 by omega)]

theorem exec_pop (r : RegIdx) (hp : s.pc.toNat ≤ 253) (h0 : s.popBase r ≠ 255#8) :
    exec (.pop (regByte r)) s = .next ((s.popped r).setPc (s.pc + 2#8)) := by
  simp [exec, execPop, withPop_inside h0, withPcPlus_inside (show s.pc.toNat + 2 ≤ 255 by omega)]

theorem exec_call (r : RegIdx) (hp : s.pc.toNat ≤ 253) (h0 : s.sp ≠ 0#8) :
    exec (.call (regByte r)) s = .next (s.called.setPc (s.called.reg r)) := by
  simp [exec, execCall, withPushSlot_inside h0, withPcPlus_inside (show s.pc.toNat + 2 ≤ 255 by omega)]

theorem exec_ret (h0 : s.popBase Config.linkIndex ≠ 255#8) :
    exec .ret s =
      .next ((s.popped Config.linkIndex).setPc ((s.popped Config.linkIndex).reg Config.linkIndex)) := by
  simp [exec, execRet, withPop_inside h0]

/-! ### The registers of a completed instruction -/

/-- A register outside the "writes" column of R13 keeps its value. -/
theorem Completes.reg_eq (h : Completes s i t) {r : RegIdx} (hw : Instr.writesReg i r = false) :
    t.reg r = s.reg r := by
  cases h with
  | ldi q _ _ | not q _ | add q _ _ | mul q _ _ | mod q _ _ | and q _ _ | or q _ _ | xor q _ _ | shl q _ _
  | shr q _ _ => exact reg_setReg_of_ne s q r _ (by simpa [Instr.writesReg] using hw)
  | push q _ _ => exact reg_setReg_of_ne s _ r _ (by simpa [Instr.writesReg, eq_comm] using hw)
  | pop q _ _ =>
    obtain ⟨hq, h7⟩ : q ≠ r ∧ r ≠ 7 := by simpa [Instr.writesReg] using hw
    exact (reg_setReg_of_ne _ _ r _ h7.symm).trans (reg_setReg_of_ne s q r _ hq)
  | call _ _ _ | ret _ =>
    obtain ⟨h4, h7⟩ : r ≠ 4 ∧ r ≠ 7 := by simpa [Instr.writesReg] using hw
    exact (reg_setReg_of_ne _ _ r _ h7.symm).trans (reg_setReg_of_ne s _ r _ h4.symm)
  | _ => rfl

section
variable {r : RegIdx} (v : Byte) (h7 : r ≠ 7)
include h7

theorem sp_setReg_of_ne : (s.setReg r v).sp = s.sp := reg_setReg_of_ne s r 7 v h7

theorem popBase_setReg_of_ne : (s.setReg r v).popBase r = s.popBase r := by
  simp [State.popBase, State.load, sp_setReg_of_ne v h7]

/-- A pop overwrites its destination. -/
theorem popped_setReg_of_ne : (s.setReg r v).popped r = s.popped r := by
  simp [State.popped, popBase_setReg_of_ne v h7, State.load, sp_setReg_of_ne v h7]

end

/-- CALL overwrites the link register. -/
theorem called_setReg_link (v : Byte) : (s.setReg Config.linkIndex v).called = s.called := by
  simp [State.called, sp_setReg_of_ne v (show Config.linkIndex ≠ 7 by decide)]

/-- The old value of a register that is written and not read does not show in a completed result: only LDI and POP have
such a destination, and CALL and RET the link register. -/
theorem Completes.exec_setReg (h : Completes s i t) {r : RegIdx} (v : Byte) (hread : Instr.readsReg i s r = false)
    (hwrite : Instr.writesReg i r = true) : exec i (s.setReg r v) = .next t := by
  cases h with
  | ldi q imm hp =>
    obtain rfl : q = r := by simpa [Instr.writesReg] using hwrite
    rw [exec_ldi q imm (by exact hp), setReg_setReg_same, setReg_pc]
  | pop q hp h0 =>
    have h7 : r ≠ 7 := by simpa [Instr.readsReg] using hread
    obtain rfl : q = r := by simpa [Instr.writesReg, h7] using hwrite
    rw [exec_pop q (by exact hp) (by rwa [popBase_setReg_of_ne v h7]), popped_setReg_of_ne v h7, setReg_pc]
  | call q hp h0 =>
    have h7 : r ≠ 7 := by rintro rfl; simp [Instr.readsReg] at hread
    obtain rfl : r = Config.linkIndex := by simpa [Instr.writesReg, h7] using hwrite
    rw [exec_call q (by exact hp) (by rwa [sp_setReg_of_ne v h7]), called_setReg_link]
  | ret h0 =>
    have h7 : r ≠ 7 := by simpa [Instr.readsReg] using hread
    obtain rfl : r = Config.linkIndex := by simpa [Instr.writesReg, h7] using hwrite
    rw [exec_ret (by rwa [popBase_setReg_of_ne v h7]), popped_setReg_of_ne v h7]
  | _ =>
    -- every other instruction writes nothing, or reads what it writes
    simp_all [Instr.writesReg, Instr.readsReg]

end Sys2Proof.Machine
end

section
/-! SUPPORT. What the Loader leaves in memory (70_reset_and_hazards.md R161), and the first step after a reset with the
empty image. -/

namespace Sys2Proof.Machine

/-- Bytes stored from `base` up that fit the 256 cells read back in order, and no other cell changes. -/
theorem Memory.read_writeBytes {vs : List Byte} {base : Nat} (m : Memory) (h : base + vs.length ≤ Config.memSize)
    (a : Nat) :
    (m.writeBytes base vs).read a = if base ≤ a ∧ a < base + vs.length then vs.getD (a - base) 0#8 else m.read a := by
  induction vs generalizing m base with
  | nil => rw [if_neg (by simp)]; rfl
  | cons v vs ih =>
    rw [List.length_cons] at h
    rw [Memory.writeBytes, if_pos (by omega), ih _ (by omega), Memory.read_write, List.length_cons]
    rcases lt_trichotomy a base with hlt | rfl | hgt
    · rw [if_neg (by omega), if_neg (by omega), if_neg (by omega)]
    · rw [if_neg (by omega), if_pos rfl, if_pos (by omega)]
      simp
    · obtain ⟨k, rfl⟩ : ∃ k, a = base + 1 + k := ⟨a - base - 1, by omega⟩
      by_cases hk : k < vs.length
      · rw [if_pos (by omega), if_pos (by omega), show base + 1 + k - base = k + 1 by omega, List.getD_cons_succ,
          Nat.add_sub_cancel_left]
      · rw [if_neg (by omega), if_neg (by omega), if_neg (by omega)]

theorem read_resetWith {image : List Byte} (h : image.length ≤ 256) (a : Nat) :
    (resetWith image).mem.read a = image.getD a 0#8 := by
  rw [resetWith, Memory.read_writeBytes [] (by simpa using h)]
  by_cases ha : a < image.length
  · simp [ha]
  · simp [ha]

theorem reg_reset_of_ne {r : RegIdx} (h : r ≠ 7) : State.reset.reg r = 0#8 := by
  revert r; decide

theorem step_reset : step State.reset = .next (faultedWith State.reset (.unknownOpcode 0#8)) := by
  rw [step, whenRunning_running rfl, withInstr, withFetched_inside (by decide), decode_unknown (by decide)]
  rfl

end Sys2Proof.Machine
end

section
/-! The statements of 10_state.md. -/

namespace Sys2Proof.Proofs.StateFamily

open Sys2Proof.Machine

/-- Settles O19: the invariant of a step is that of the fetched instruction, or of one of the two faults before it. -/
theorem stepKeepsInvariant : Obligations.StepKeepsInvariant := by
  unfold Obligations.StepKeepsInvariant
  intro s t h ht
  obtain ⟨hs, ⟨i, hi, hexec⟩ | ⟨-, rfl⟩ | ⟨hp, hno, rfl⟩⟩ := step_next ht
  · exact exec_keeps_inv h hs hi hexec
  · exact inv_faultedWith h (.inr rfl)
  · exact inv_faultedWith h ⟨hp, rfl, fun ho => not_exists.mpr hno ((fetches_iff_opcode hp).mpr ho)⟩

/-- Settles O14: only CMP completes with another FL, and a change of FL is unseen by every instruction but CMP, and by
JEQ and JNE too where it keeps E. -/
theorem flagsWrittenByCmpReadByBranches : Obligations.FlagsWrittenByCmpReadByBranches := by
  unfold Obligations.FlagsWrittenByCmpReadByBranches
  refine ⟨fun i s t ht hcmp => ?_, fun i s v hcmp hbr => ?_, fun a s v he => ⟨?_, ?_⟩, fun ra rb s v hp => ?_⟩
  · rcases exec_cases ht with ⟨c, rfl⟩ | hc
    · rfl
    · rcases hc.fl_eq with hfl | ⟨ra, rb, hi, -⟩
      · exact hfl
      · exact absurd hi (hcmp _ _)
  · exact (unseen_setFl hcmp fun ⟨a, h⟩ => absurd h (by simp [hbr a])).exec_comm
  · exact (unseen_setFl (by simp) fun _ => he).exec_comm
  · exact (unseen_setFl (by simp) fun _ => he).exec_comm
  · rw [exec_cmp ra rb hp, exec_cmp ra rb (by exact hp)]
    rfl

/-- Settles O15: a fault changes no byte, and of the completed instructions only the two pushes store one. -/
theorem memoryWrittenOnlyByPushAndCall : Obligations.MemoryWrittenOnlyByPushAndCall := by
  unfold Obligations.MemoryWrittenOnlyByPushAndCall
  intro i s t a ht hne
  rcases exec_cases ht with ⟨c, rfl⟩ | hc
  · exact absurd rfl hne
  rcases hc.mem_eq with hm | ⟨h0, hi, v, hm⟩
  · exact absurd (by rw [hm]) hne
  · refine ⟨hi, ?_⟩
    have ha : a = (s.sp - 1#8).toNat := by
      by_contra ha
      exact hne (by rw [hm, Memory.read_write_other ha])
    rw [ha]
    change ((s.sp - 1#8).toNat : Int) = (s.sp.toNat : Int) - 1
    bv_omega

/-- Settles O16: only PRN completes with another OUT, and bytes put before OUT are unseen by every instruction. -/
theorem outputWrittenByPrnReadByNone : Obligations.OutputWrittenByPrnReadByNone := by
  unfold Obligations.OutputWrittenByPrnReadByNone
  refine ⟨rfl, fun i s t ht hprn => ?_, fun r s hp => ⟨_, exec_prn r hp, rfl⟩, fun i s o =>
    (unseen_prependOut o i s).exec_comm⟩
  rcases exec_cases ht with ⟨c, rfl⟩ | hc
  · rfl
  · rcases hc.out_eq with hout | ⟨r, hi⟩
    · exact hout
    · exact absurd hi (hprn _)

/-- Settles O17: the "writes" column bounds what completes changed, a register in neither column is unseen, and one that
is only written is overwritten. -/
theorem registerReadWriteTable : Obligations.RegisterReadWriteTable := by
  unfold Obligations.RegisterReadWriteTable
  refine ⟨fun i s t r ht hw => ?_, fun i s r v hread hwrite => (unseen_setReg v hread hwrite).exec_comm,
    fun i s t r v hs ht hnf hread hwrite => ?_⟩
  · rcases exec_cases ht with ⟨c, rfl⟩ | hc
    · rfl
    · exact hc.reg_eq hw
  · rcases exec_cases ht with ⟨c, rfl⟩ | hc
    · exact absurd rfl (hnf c)
    · exact hc.exec_setReg v hread hwrite

/-- Settles O18: a completed instruction's pc, with E read as FL[0]. -/
theorem fallThroughAdvance : Obligations.FallThroughAdvance := by
  unfold Obligations.FallThroughAdvance
  intro i s t hs ht hnf hret hjump hjeq hjne
  rw [← equalFlag_eq_getLsbD] at hjeq hjne
  rcases exec_cases ht with ⟨c, rfl⟩ | hc
  · exact absurd rfl (hnf c)
  · exact hc.pc_eq hret hjump hjeq hjne

/-- Settles O21: by the equation of the Loader's writes, and the step of the empty image. -/
theorem resetAndLoad : Obligations.ResetAndLoad := by
  unfold Obligations.ResetAndLoad
  refine ⟨fun image s h => ⟨resetWith image, if_pos h, fun r hr => reg_reset_of_ne hr, rfl, rfl, rfl, rfl, rfl,
    fun a _ => read_resetWith h a⟩, fun image s h => if_neg (by simpa using h), fun s => rfl, step_reset⟩

/-- Settles O20: nothing is stored outside the canonical form by the Loader, and reset leaves FL = 0 and Running. -/
theorem invariantAtReset : Obligations.InvariantAtReset :=
  ⟨⟨reset_wf, .inl rfl, trivial⟩, fun image => ⟨resetWith_wf image, .inl rfl, trivial⟩⟩

end Sys2Proof.Proofs.StateFamily
end

section
/-! SUPPORT. One step where an instruction is fetched (30_encoding.md R57), and what a completed PUSH leaves (R100). -/

namespace Sys2Proof.Machine

variable {s : State}

theorem step_of_fetches {i : Instr} (hs : s.status = .running) (hi : s.Fetches i) : step s = exec i s := by
  obtain ⟨hp, rest, hd⟩ := hi
  rw [step, whenRunning_running hs, withInstr_decoded hp hd]

theorem exec_push (r : RegIdx) (hp : s.pc.toNat ≤ 253) (h0 : s.sp ≠ 0#8) :
    exec (.push (regByte r)) s = .next ((s.pushReg (s.sp - 1#8) r).setPc (s.pc + 2#8)) := by
  simp [exec, execPush, withPushSlot_inside h0, withPcPlus_inside (show s.pc.toNat + 2 ≤ 255 by omega)]

/-- PUSH R7 is left out: it stores the decremented SP (D9). -/
theorem read_pushReg_slot (sp1 : Byte) {r : RegIdx} (h : r ≠ Config.spIndex) :
    (s.pushReg sp1 r).mem.read sp1.toNat = s.reg r := by
  rw [pushReg_mem, Memory.read_write_same, if_neg h.symm]

end Sys2Proof.Machine
end

section
/-! The statements of 20_memory.md. -/

namespace Sys2Proof.Proofs.MemoryFamily

open Sys2Proof.Machine

/-- Settles O25: where SP is pc + 3, the slot of the push is pc + 2, which is the new pc. -/
theorem pushedByteIsFetchedNext : Obligations.PushedByteIsFetchedNext := by
  unfold Obligations.PushedByteIsFetchedNext
  intro s r hs hr hi hsp
  have hsp : s.sp.toNat = s.pc.toNat + 3 := hsp
  have h0 : s.sp ≠ 0#8 := by bv_omega
  have hslot : s.pc + 2#8 = s.sp - 1#8 := by bv_omega
  refine ⟨_, (step_of_fetches hs hi).trans (exec_push r hi.1 h0), hs, ?_⟩
  rw [State.byteAtPc, setPc_pc, setPc_mem, Nat.add_zero, hslot]
  exact read_pushReg_slot _ hr

end Sys2Proof.Proofs.MemoryFamily
end

section
/-! SUPPORT. What the decoder answers for an opcode with its operands, one equation for each operand count, and the
converse: what a decoded list consists of (30_encoding.md R50, R52, R57). -/

namespace Sys2Proof

variable {ir : Byte} {build : Byte → Byte → Instr}

theorem decode_noOperand (hd : dispatch ir = some build) (hn : operandCount ir = 0) (rest : List Byte) :
    decode (ir :: rest) = .ok (build 0#8 0#8, rest) := by
  simp only [decode, hd, hn]

theorem decode_oneOperand (hd : dispatch ir = some build) (hn : operandCount ir = 1) (a : Byte) (rest : List Byte) :
    decode (ir :: a :: rest) = .ok (build a 0#8, rest) := by
  simp only [decode, hd, hn]

theorem decode_twoOperands (hd : dispatch ir = some build) (hn : operandCount ir = 2) (a b : Byte) (rest : List Byte) :
    decode (ir :: a :: b :: rest) = .ok (build a b, rest) := by
  simp only [decode, hd, hn]

/-- The three formats of R53: no operand, one operand, two operands. -/
theorem decode_encode (i : Instr) (rest : List Byte) : decode (encode i ++ rest) = .ok (i, rest) := by
  cases i with
  | hlt => exact decode_noOperand (build := fun _ _ => .hlt) rfl rfl rest
  | ret => exact decode_noOperand (build := fun _ _ => .ret) rfl rfl rest
  | prn a => exact decode_oneOperand (build := fun a _ => .prn a) rfl rfl a rest
  | not a => exact decode_oneOperand (build := fun a _ => .not a) rfl rfl a rest
  | push a => exact decode_oneOperand (build := fun a _ => .push a) rfl rfl a rest
  | pop a => exact decode_oneOperand (build := fun a _ => .pop a) rfl rfl a rest
  | call a => exact decode_oneOperand (build := fun a _ => .call a) rfl rfl a rest
  | jmp a => exact decode_oneOperand (build := fun a _ => .jmp a) rfl rfl a rest
  | jeq a => exact decode_oneOperand (build := fun a _ => .jeq a) rfl rfl a rest
  | jne a => exact decode_oneOperand (build := fun a _ => .jne a) rfl rfl a rest
  | ldi a b | add a b | mul a b | mod a b | and a b | or a b | xor a b | shl a b | shr a b | cmp a b =>
    exact decode_twoOperands rfl rfl a b rest

/-- A list that decodes begins with an opcode of the dispatch table, and as many operand bytes as the opcode counts
follow it before the rest. -/
theorem operands_of_decode {ops rest : List Byte} {i : Instr} (h : decode (ir :: ops) = .ok (i, rest)) :
    ∃ build a b, dispatch ir = some build ∧ i = build a b ∧ ops = [a, b].take (operandCount ir) ++ rest := by
  cases hd : dispatch ir with
  | none => simp [decode, hd] at h
  | some build =>
    simp only [decode, hd] at h
    split at h <;> cases h
    case h_1 hn => exact ⟨build, 0#8, 0#8, rfl, rfl, by simp [hn]⟩
    case h_2 a hn => exact ⟨build, a, 0#8, rfl, rfl, by simp [hn]⟩
    case h_3 a b hn => exact ⟨build, a, b, rfl, rfl, by simp [hn]⟩

end Sys2Proof
end

section
/-! The statements of 30_encoding.md. -/

namespace Sys2Proof.Proofs.EncodingFamily

open Sys2Proof.Machine

/-- Settles O1, by the format of the instruction. -/
theorem decodeEncodeRoundTrip : Obligations.DecodeEncodeRoundTrip :=
  decode_encode

/-- Settles O2: the decoder takes the opcode and its operands off the list, and the table row's instruction encodes to
these bytes. -/
theorem decodedBytesAreTheEncoding : Obligations.DecodedBytesAreTheEncoding := by
  unfold Obligations.DecodedBytesAreTheEncoding
  intro bytes rest i h
  cases bytes with
  | nil => cases h
  | cons ir ops =>
    obtain ⟨build, a, b, hd, rfl, rfl⟩ := operands_of_decode h
    rw [encode_of_dispatch hd, List.cons_append]

/-- Settles O5: an opcode's operand count says which bytes build the instruction; a byte that is no opcode decodes to
none, whatever follows it. -/
theorem unusedOperandBytesIgnored : Obligations.UnusedOperandBytesIgnored := by
  unfold Obligations.UnusedOperandBytesIgnored
  intro ir x y x' y'
  by_cases ho : ir ∈ opcodes
  · obtain ⟨build, hd⟩ := Option.isSome_iff_exists.mp ((dispatch_isSome ir).mpr ho)
    constructor
    · intro hn
      rw [decode_noOperand hd hn, decode_noOperand hd hn]
      rfl
    · intro hn
      rw [decode_oneOperand hd hn, decode_oneOperand hd hn]
      rfl
  · simp [decode_unknown ho]

/-- Settles O3: each word is the encoding of its instruction. -/
theorem opcodeWordsFromTheTable : Obligations.OpcodeWordsFromTheTable :=
  ⟨decode_encode (.ldi 0#8 8#8) [], decode_encode (.prn 0#8) [], decode_encode .hlt [],
    decode_encode (.cmp 0#8 1#8) [], decode_encode (.not 2#8) [0xFF#8], decode_encode (.push 7#8) [],
    decode_encode (.call 1#8) [], decode_encode .ret [], by decide⟩

/-- Settles O6: the fetch reads the three bytes at pc, and the decoded instruction is what exec is given. -/
theorem stepRunsTheFetchedInstruction : Obligations.StepRunsTheFetchedInstruction :=
  fun _ _ rest hs hp hd => step_of_fetches hs ⟨hp, rest, hd⟩

end Sys2Proof.Proofs.EncodingFamily
end

section
/-! SUPPORT. What the step does at the top of memory, which step halts, and the answers of HLT and of an operation that
faults at once (40_halt_load_print.md R70 to R72). -/

namespace Sys2Proof.Machine

variable {s t : State}

/-- Where the fetch leaves memory, the step faults before the opcode is looked up (R57, D5). -/
theorem step_top (hs : s.status = .running) (hp : 254 ≤ s.pc.toNat) :
    step s = .next (faultedWith s (.addressOutOfRange 256)) := by
  rw [step, whenRunning_running hs, withInstr, withFetched_top hp, raise_eq]

theorem step_halted_ne_next (hs : s.status = .halted) (u : State) : step s ≠ .next u := by
  simp [step, whenRunning_halted hs]

/-- No fault and no other instruction halts (R17, R70). -/
theorem fetches_hlt_of_step_halts (h : step s = .next t) (ht : t.status = .halted) : s.Fetches .hlt := by
  obtain ⟨hs, ⟨i, hi, hexec⟩ | ⟨-, rfl⟩ | ⟨-, -, rfl⟩⟩ := step_next h
  · rcases exec_cases hexec with ⟨c, rfl⟩ | hc
    · cases ht
    · rcases hc.status_eq with hst | ⟨rfl, -, -⟩
      · simp [ht, hs] at hst
      · exact hi
  · cases ht
  · cases ht

theorem exec_hlt (hp : s.pc.toNat ≤ 254) : exec .hlt s = .next ((s.setStatus .halted).setPc (s.pc + 1#8)) := by
  simp [exec, execHlt, withPcPlus_inside (show s.pc.toNat + 1 ≤ 255 by omega)]

/-- The fall-through of a three-byte instruction at pc = 253 (R58, R133). -/
theorem withPcPlus_three_at_253 (hp : s.pc.toNat = 253) (k : Byte → Answer) :
    withPcPlus s 3 k = .next (faultedWith s (.addressOutOfRange 256)) := by
  rw [withPcPlus_outside (by omega), raise_eq, hp]
  rfl

theorem exec_ldi_at_253 (r : RegIdx) (imm : Byte) (hp : s.pc.toNat = 253) :
    exec (.ldi (regByte r) imm) s = .next (faultedWith s (.addressOutOfRange 256)) :=
  (withReg_regByte r _).trans (withPcPlus_three_at_253 hp _)

end Sys2Proof.Machine
end

section
/-! SUPPORT. The frame of exec: what the rules of the whole machine (10_state.md R13 to R19) leave of each piece of
state, whether the instruction completes or faults. -/

namespace Sys2Proof.Machine

variable {s t : State} {i : Instr}

theorem names_eq_false {a : Byte} {r : RegIdx} (h : a ≠ regByte r) : names a r = false :=
  decide_eq_false fun e => h (BitVec.eq_of_toNat_eq (e.trans (regByte_toNat r).symm))

section
variable (ht : exec i s = .next t)
include ht

theorem exec_reg_eq {r : RegIdx} (hw : Instr.writesReg i r = false) : t.reg r = s.reg r := by
  obtain ⟨hreg, -⟩ := Proofs.StateFamily.registerReadWriteTable
  exact hreg i s t r ht hw

theorem exec_fl_eq (hcmp : ∀ a b, i ≠ .cmp a b) : t.fl = s.fl := by
  obtain ⟨hfl, -⟩ := Proofs.StateFamily.flagsWrittenByCmpReadByBranches
  exact hfl i s t ht hcmp

theorem exec_out_eq (hprn : ∀ a, i ≠ .prn a) : t.out = s.out := by
  obtain ⟨-, hout, -⟩ := Proofs.StateFamily.outputWrittenByPrnReadByNone
  exact hout i s t ht hprn

theorem exec_memKept (hpush : ∀ a, i ≠ .push a ∧ i ≠ .call a) : MemKept s t := by
  intro a
  by_contra hne
  obtain ⟨⟨b, hi⟩, -⟩ := Proofs.StateFamily.memoryWrittenOnlyByPushAndCall i s t a ht hne
  exact hi.elim (hpush b).1 (hpush b).2

theorem exec_statusKeptOrFaulted (hhlt : i ≠ .hlt) : StatusKeptOrFaulted s t := by
  rcases exec_cases ht with hf | hc
  · exact .inr hf
  · rcases hc.status_eq with hst | ⟨hi, -⟩
    · exact .inl hst
    · exact absurd hi hhlt

end

end Sys2Proof.Machine
end

section
/-! The statements of 40_halt_load_print.md. -/

namespace Sys2Proof.Proofs.HaltLoadPrintFamily

open Sys2Proof.Machine

/-- Settles O26: HLT's completed result, the status gate after it, the fetch fault at the top of memory, and HLT as the
only instruction that writes Halted. -/
theorem haltStopsTheCore : Obligations.HaltStopsTheCore := by
  unfold Obligations.HaltStopsTheCore
  exact ⟨rfl, fun s hp => ⟨exec_hlt (by omega), step_halted_ne_next rfl⟩, fun s hs hp _ => step_top hs hp,
    fun s t => fetches_hlt_of_step_halts⟩

/-- Settles O27: the operand check, then the fall-through check, then the completed result. -/
theorem ldiLoadsImmediate : Obligations.LdiLoadsImmediate := by
  unfold Obligations.LdiLoadsImmediate
  exact ⟨fun _ _ => rfl, fun s a imm ha => withReg_illegal ha _, fun s r imm => exec_ldi_at_253 r imm,
    fun s r imm => exec_ldi r imm⟩

/-- Settles O28: the operand check and the completed result; the line the host adds for the byte is its numeral. -/
theorem prnEmitsRegister : Obligations.PrnEmitsRegister := by
  unfold Obligations.PrnEmitsRegister
  refine ⟨fun _ => rfl, fun s a ha => withReg_illegal ha _, fun s r hp => ⟨exec_prn r hp, ?_⟩, ?_, ?_⟩
  · exact ⟨_, renderOut_append s.out (s.reg r), isNumeralOf_repr (s.reg r)⟩
  · decide
  · decide

/-- Settles O46: each of the ten writes the register that `a` names, and none of them is CMP, PRN, a push or HLT. -/
theorem frameOfRegisterResults : Obligations.FrameOfRegisterResults := by
  unfold Obligations.FrameOfRegisterResults
  intro a b i s t hi ht
  have hw : Instr.writesReg i = names a := by fin_cases hi <;> rfl
  refine ⟨fun r hr => exec_reg_eq ht ?_, exec_fl_eq ht ?_, exec_out_eq ht ?_, exec_memKept ht ?_,
    exec_statusKeptOrFaulted ht ?_⟩
  · rw [hw]
    exact names_eq_false hr
  · rintro x y rfl; simp at hi
  · rintro x rfl; simp at hi
  · exact fun x => ⟨by rintro rfl; simp at hi, by rintro rfl; simp at hi⟩
  · rintro rfl; simp at hi

/-- Settles O48: the four write no register, and none of them is CMP, a push or HLT. -/
theorem frameOfPrintAndJumps : Obligations.FrameOfPrintAndJumps := by
  unfold Obligations.FrameOfPrintAndJumps
  intro a i s t hi ht
  have hw : ∀ r, Instr.writesReg i r = false := by fin_cases hi <;> exact fun _ => rfl
  refine ⟨fun r _ => exec_reg_eq ht (hw r), exec_fl_eq ht ?_, fun hprn => exec_out_eq ht ?_, exec_memKept ht ?_,
    exec_statusKeptOrFaulted ht ?_⟩
  · rintro x y rfl; simp at hi
  · rintro x rfl
    obtain rfl : x = a := by simpa using hi
    exact hprn rfl
  · exact fun x => ⟨by rintro rfl; simp at hi, by rintro rfl; simp at hi⟩
  · rintro rfl; simp at hi

/-- Settles O49: HLT faults or completes, and writes nothing but STATUS and pc. -/
theorem frameOfHalt : Obligations.FrameOfHalt := by
  unfold Obligations.FrameOfHalt
  intro s t ht
  refine ⟨fun r _ => exec_reg_eq ht rfl, exec_fl_eq ht (by simp), exec_out_eq ht (by simp), exec_memKept ht (by simp),
    ?_⟩
  rcases exec_cases ht with hf | hc
  · exact .inr hf
  · cases hc
    exact .inl rfl

end Sys2Proof.Proofs.HaltLoadPrintFamily
end

section
/-! SUPPORT. The operations of the ALU as their rules write them (41_alu.md R81 to R90), and the answers of
its ten instructions. -/

namespace Sys2Proof.Machine

variable {s : State}

/-! ### The pure operations -/

/-- Narrowing to a byte keeps the low eight bits (R5). -/
theorem ofNat_mod_256 (n : Nat) : BitVec.ofNat 8 n = BitVec.ofNat 8 (n % 256) :=
  BitVec.eq_of_toNat_eq (by simp)

/-- An amount of 8 or more shifts every bit out (R88, D11). -/
theorem aluShl_of_le (va : Byte) {vb : Byte} (h : 8 ≤ vb.toNat) : aluShl va vb = 0#8 := by
  have hdvd : 256 ∣ va.toNat * 2 ^ vb.toNat := Dvd.dvd.mul_left (pow_dvd_pow 2 h) va.toNat
  rw [aluShl, ofNat_mod_256, Nat.mod_eq_zero_of_dvd hdvd]

/-- An amount of 8 or more shifts every bit out (R89, D11). -/
theorem aluShr_of_le (va : Byte) {vb : Byte} (h : 8 ≤ vb.toNat) : aluShr va vb = 0#8 := by
  have hlt : va.toNat < 2 ^ vb.toNat := va.isLt.trans_le (Nat.pow_le_pow_right (by decide) h)
  rw [aluShr, Nat.div_eq_of_lt hlt]

/-- 255 − v is v with every bit inverted (R87). -/
theorem aluNot_eq_xor (v : Byte) : aluNot v = v ^^^ 0xFF#8 := by
  have hflip : v ^^^ 0xFF#8 = ~~~v := BitVec.xor_allOnes
  rw [hflip, aluNot]
  bv_omega

/-- The order of two bytes as unsigned integers is the order of the bytes (R90, C1). -/
theorem compareFlags_eq (va vb : Byte) :
    compareFlags va vb = if va = vb then 1#8 else if vb < va then 2#8 else 4#8 := by
  simp only [compareFlags, BitVec.toNat_inj, BitVec.lt_def, flagE, flagG, flagL]

/-! ### The answers of the instructions -/

/-- The rule of every instruction that runs in the frame of R80: its encoding, its faults in the order of R135, and its
result, with the operation written as `f` where the model computes `g`. -/
theorem regRegRule_of_aluRegReg {op : Byte → Byte → Instr} {opcode : Byte} {f g : Byte → Byte → Byte}
    (hencode : ∀ a b, encode (op a b) = [opcode, a, b])
    (hexec : ∀ a b s, exec (op a b) s = aluRegReg g a b s) (hfg : ∀ va vb, g va vb = f va vb) :
    RegRegRule op opcode f := by
  obtain rfl : g = f := funext₂ hfg
  simp only [RegRegRule, hexec]
  refine ⟨hencode, fun s a b ha => withRegs_illegal_first ha b _, fun s ra b hb => withRegs_illegal_second ra hb _,
    fun s ra rb hp => ?_, fun s ra rb hp => ?_⟩
  · exact (withRegs_regByte ra rb _).trans (withPcPlus_three_at_253 hp _)
  · exact (withRegs_regByte ra rb _).trans (withPcPlus_inside (by omega) _)

theorem exec_mod_of_divisor_zero (ra : RegIdx) {rb : RegIdx} (h0 : s.reg rb = 0#8) :
    exec (.mod (regByte ra) (regByte rb)) s = .next (faultedWith s (.divisionByZero s.pc)) :=
  (withRegs_regByte ra rb _).trans (if_pos h0)

theorem exec_mod_at_253 (ra : RegIdx) {rb : RegIdx} (h0 : s.reg rb ≠ 0#8) (hp : s.pc.toNat = 253) :
    exec (.mod (regByte ra) (regByte rb)) s = .next (faultedWith s (.addressOutOfRange 256)) := by
  rw [exec, execMod, withRegs_regByte, if_neg h0, withPcPlus_three_at_253 hp]

theorem exec_mod (ra : RegIdx) {rb : RegIdx} (h0 : s.reg rb ≠ 0#8) (hp : s.pc.toNat ≤ 252) :
    exec (.mod (regByte ra) (regByte rb)) s = .next (s.regReged aluMod ra rb) := by
  rw [exec, execMod, withRegs_regByte, if_neg h0, withPcPlus_inside (by omega)]

theorem exec_not (r : RegIdx) (hp : s.pc.toNat ≤ 253) :
    exec (.not (regByte r)) s = .next ((s.setReg r (aluNot (s.reg r))).setPc (s.pc + 2#8)) := by
  rw [exec, execNot, withReg_regByte, withPcPlus_inside (by omega)]

theorem exec_cmp_at_253 (ra rb : RegIdx) (hp : s.pc.toNat = 253) :
    exec (.cmp (regByte ra) (regByte rb)) s = .next (faultedWith s (.addressOutOfRange 256)) :=
  (withRegs_regByte ra rb _).trans (withPcPlus_three_at_253 hp _)

end Sys2Proof.Machine
end

section
/-! The statements of 41_alu.md. -/

namespace Sys2Proof.Proofs.AluFamily

open Sys2Proof.Machine

/-- Settles O29: ADD narrows the exact sum once, which is the sum mod 256. -/
theorem addWrapsModulo256 : Obligations.AddWrapsModulo256 := by
  unfold Obligations.AddWrapsModulo256
  exact regRegRule_of_aluRegReg (fun _ _ => rfl) (fun _ _ _ => rfl) fun _ _ => ofNat_mod_256 _

/-- Settles O30: MUL narrows the exact product once, which is the product mod 256. -/
theorem mulKeepsLowByte : Obligations.MulKeepsLowByte := by
  unfold Obligations.MulKeepsLowByte
  exact regRegRule_of_aluRegReg (fun _ _ => rfl) (fun _ _ _ => rfl) fun _ _ => ofNat_mod_256 _

/-- Settles O31: the two operand checks, the divisor check, the fall-through check, then the completed result. -/
theorem modRemainderOrFault : Obligations.ModRemainderOrFault := by
  unfold Obligations.ModRemainderOrFault
  exact ⟨fun _ _ => rfl, fun s a b ha => withRegs_illegal_first ha b _, fun s ra b hb => withRegs_illegal_second ra hb _,
    fun s ra rb => exec_mod_of_divisor_zero ra, fun s ra rb => exec_mod_at_253 ra, fun s ra rb => exec_mod ra⟩

/-- Settles O32: AND is the frame of R80 around the bitwise and. -/
theorem andBitwise : Obligations.AndBitwise := by
  unfold Obligations.AndBitwise
  exact regRegRule_of_aluRegReg (fun _ _ => rfl) (fun _ _ _ => rfl) fun _ _ => rfl

/-- Settles O33: OR is the frame of R80 around the bitwise or. -/
theorem orBitwise : Obligations.OrBitwise := by
  unfold Obligations.OrBitwise
  exact regRegRule_of_aluRegReg (fun _ _ => rfl) (fun _ _ _ => rfl) fun _ _ => rfl

/-- Settles O34: XOR is the frame of R80 around the bitwise exclusive or. -/
theorem xorBitwise : Obligations.XorBitwise := by
  unfold Obligations.XorBitwise
  exact regRegRule_of_aluRegReg (fun _ _ => rfl) (fun _ _ _ => rfl) fun _ _ => rfl

/-- Settles O35: the operand check and the completed result, which is the byte with every bit inverted. -/
theorem notComplements : Obligations.NotComplements := by
  unfold Obligations.NotComplements
  exact ⟨fun _ => rfl, fun s a ha => withReg_illegal ha _, fun s r hp => ⟨exec_not r hp, aluNot_eq_xor (s.reg r)⟩⟩

/-- Settles O36: an amount of 8 or more leaves nothing in the byte; a smaller one narrows the exact product. -/
theorem shlByWholeByte : Obligations.ShlByWholeByte := by
  unfold Obligations.ShlByWholeByte
  refine regRegRule_of_aluRegReg (fun _ _ => rfl) (fun _ _ _ => rfl) fun va vb => ?_
  split
  · exact aluShl_of_le va ‹_›
  · exact ofNat_mod_256 _

/-- Settles O37: an amount of 8 or more exceeds every byte; a smaller one is the exact quotient. -/
theorem shrLogical : Obligations.ShrLogical := by
  unfold Obligations.ShrLogical
  refine regRegRule_of_aluRegReg (fun _ _ => rfl) (fun _ _ _ => rfl) fun va vb => ?_
  split
  · exact aluShr_of_le va ‹_›
  · rfl

/-- Settles O38: the two operand checks, the fall-through check, then FL by the unsigned order. -/
theorem cmpSetsOneFlag : Obligations.CmpSetsOneFlag := by
  unfold Obligations.CmpSetsOneFlag
  refine ⟨fun _ _ => rfl, fun s a b ha => withRegs_illegal_first ha b _, fun s ra b hb => withRegs_illegal_second ra hb _,
    fun s ra rb => exec_cmp_at_253 ra rb, fun s ra rb hp => ?_⟩
  rw [exec_cmp ra rb hp, compareFlags_eq]
  rfl

/-- Settles O47: CMP writes no register, and is no PRN, no push and no HLT. -/
theorem frameOfCompare : Obligations.FrameOfCompare := by
  unfold Obligations.FrameOfCompare
  intro a b s t ht
  exact ⟨fun r _ => exec_reg_eq ht rfl, exec_out_eq ht (by simp), exec_memKept ht (by simp),
    exec_statusKeptOrFaulted ht (by simp)⟩

end Sys2Proof.Proofs.AluFamily
end

section
/-! SUPPORT. What PUSH and POP answer where the stack pointer leaves memory, what a pop leaves of a push
(42_stack.md R100, R101), and the one byte that a push can change. -/

namespace Sys2Proof.Machine

variable {s t : State}

/-! ### Stack pointers outside memory -/

theorem exec_push_of_sp_zero (r : RegIdx) (h0 : s.sp = 0#8) :
    exec (.push (regByte r)) s = .next (faultedWith s (.addressOutOfRange (-1))) :=
  (withReg_regByte r _).trans (withPushSlot_empty h0 _)

theorem exec_pop_of_popBase_full (r : RegIdx) (h : s.popBase r = 255#8) :
    exec (.pop (regByte r)) s = .next (faultedWith s (.addressOutOfRange 256)) :=
  (withReg_regByte r _).trans (withPop_full h _)

/-! ### The slot of a push and the value a pop increments -/

/-- The slot below a stack pointer that is not 0 is computed without wrapping (R100). -/
theorem toNat_sp_sub_one (h0 : s.sp ≠ 0#8) : (s.sp - 1#8).toNat = s.sp.toNat - 1 := by
  bv_omega

theorem popBase_of_ne {r : RegIdx} (h : r ≠ Config.spIndex) : s.popBase r = s.sp := if_neg h

theorem popBase_sp : s.popBase Config.spIndex = s.load s.sp := if_pos rfl

/-- POP R7 leaves the loaded byte plus one (R101, D9). -/
theorem popped_sp : s.popped Config.spIndex = s.setReg Config.spIndex (s.load s.sp + 1#8) := by
  rw [State.popped, setReg_setReg_same, popBase_sp]

/-! ### A push undone by a pop -/

theorem setReg_reg_self (r : RegIdx) : s.setReg r (s.reg r) = s := by
  simp [State.setReg, State.reg]

theorem sp_pushReg (sp1 : Byte) (r : RegIdx) : (s.pushReg sp1 r).sp = sp1 := reg_setReg_self s _ sp1

theorem popBase_pushReg (sp1 : Byte) {r : RegIdx} (h : r ≠ Config.spIndex) : (s.pushReg sp1 r).popBase r = sp1 := by
  rw [popBase_of_ne h, sp_pushReg]

/-- A pop into the register that was pushed leaves every register as before the push; the byte stored stays. -/
theorem popped_pushReg {r : RegIdx} (h : r ≠ Config.spIndex) :
    (s.pushReg (s.sp - 1#8) r).popped r = s.store (s.sp - 1#8) (s.reg r) := by
  have hload : (s.pushReg (s.sp - 1#8) r).load (s.sp - 1#8) = s.reg r := read_pushReg_slot _ h
  have hregs : ((s.setReg Config.spIndex (s.sp - 1#8)).setReg r (s.reg r)).setReg Config.spIndex s.sp = s := by
    rw [setReg_comm s h.symm, setReg_reg_self, setReg_setReg_same]
    exact setReg_reg_self _
  rw [State.popped, popBase_pushReg _ h, sp_pushReg, hload, BitVec.sub_add_cancel, pushReg_eq, if_neg h.symm]
  exact congrArg (State.store · (s.sp - 1#8) (s.reg r)) hregs

/-- A PUSH and a POP of the same register complete together as one store below SP (R100, R101). -/
theorem exec_pop_after_push {r : RegIdx} (h : r ≠ Config.spIndex) (h0 : s.sp ≠ 0#8) (hp : s.pc.toNat ≤ 251) :
    exec (.pop (regByte r)) ((s.pushReg (s.sp - 1#8) r).setPc (s.pc + 2#8)) =
      .next ((s.store (s.sp - 1#8) (s.reg r)).setPc (s.pc + 4#8)) := by
  have hpc : (s.pc + 2#8).toNat ≤ 253 := by bv_omega
  have hbase : (s.pushReg (s.sp - 1#8) r).popBase r ≠ 255#8 := by
    rw [popBase_pushReg _ h]
    bv_omega
  have hnext : s.pc + 2#8 + 2#8 = s.pc + 4#8 := BitVec.add_assoc _ _ _
  refine (exec_pop r hpc (by exact hbase)).trans ?_
  rw [setPc_pc, hnext, ← popped_pushReg h]
  rfl

/-! ### The frame of memory -/

/-- Whatever instruction runs, no byte changes but the one at SP - 1, if that is an address (R18, R30). -/
theorem exec_memKeptBut {i : Instr} (ht : exec i s = .next t) : MemKeptBut ((s.sp.toNat : Int) - 1) s t := by
  have hslot (b : Nat) (hne : t.mem.read b ≠ s.mem.read b) : (b : Int) = (s.sp.toNat : Int) - 1 :=
    (Proofs.StateFamily.memoryWrittenOnlyByPushAndCall i s t b ht hne).2
  refine ⟨fun a ha b hb => ?_, fun hnone b => ?_⟩
  · by_contra hne
    exact hb (Int.ofNat_inj.mp ((hslot b hne).trans (addr?_some ha)))
  · by_contra hne
    have hb : (b : Int) = (s.sp.toNat : Int) - 1 := hslot b hne
    rw [← hb, addr?_ofNat (by omega)] at hnone
    cases hnone

end Sys2Proof.Machine
end

section
/-! The statements of 42_stack.md. -/

namespace Sys2Proof.Proofs.StackFamily

open Sys2Proof.Machine

/-- Settles O23: the pop undoes the push but for the byte at the slot, which is the one byte stored. -/
theorem pushPopRoundTrip : Obligations.PushPopRoundTrip := by
  unfold Obligations.PushPopRoundTrip
  intro s r hr h0 hp
  have hslot : (s.sp - 1#8).toNat = (s.reg 7).toNat - 1 := toNat_sp_sub_one h0
  refine ⟨_, _, exec_push r (by omega) h0, exec_pop_after_push hr h0 hp, rfl, rfl, rfl, rfl, rfl, ?_⟩
  rw [setPc_mem, store_mem, ← hslot]
  exact ⟨Memory.read_write_same _ _ _, fun a ha => Memory.read_write_other ha⟩

/-- Settles O39: the operand check, then the check of SP, then the completed result, whose byte is read after SP was
decremented. -/
theorem pushPreDecrements : Obligations.PushPreDecrements := by
  unfold Obligations.PushPreDecrements
  refine ⟨fun _ => rfl, fun s a ha => withReg_illegal ha _, fun s r => exec_push_of_sp_zero r, fun s r h0 hp => ?_⟩
  have hslot : (s.sp - 1#8).toNat = (s.reg 7).toNat - 1 := toNat_sp_sub_one h0
  refine ⟨_, exec_push r hp h0, rfl, rfl, rfl, rfl, rfl, ?_⟩
  rw [setPc_mem, pushReg_mem, ← hslot]
  exact ⟨(Memory.read_write_same _ _ _).trans (if_congr eq_comm rfl rfl), fun a ha => Memory.read_write_other ha⟩

/-- Settles O40: the operand check, then the check of the value to increment, which for POP R7 is the loaded byte, then
the completed result. -/
theorem popPostIncrements : Obligations.PopPostIncrements := by
  unfold Obligations.PopPostIncrements
  refine ⟨fun _ => rfl, fun s a ha => withReg_illegal ha _,
    fun s r hr h => exec_pop_of_popBase_full r ((popBase_of_ne hr).trans h),
    fun s h => exec_pop_of_popBase_full 7 (popBase_sp.trans h), fun s r hr h hp => ?_, fun s h hp => ?_⟩
  · rw [exec_pop r hp (by rwa [popBase_of_ne hr]), State.popped, popBase_of_ne hr]
    rfl
  · refine (exec_pop 7 hp (by rwa [popBase_sp])).trans ?_
    rw [popped_sp]
    rfl

/-- Settles O50: PUSH writes x[7] and the slot below it, and is no CMP, no PRN and no HLT. -/
theorem frameOfPush : Obligations.FrameOfPush := by
  unfold Obligations.FrameOfPush
  intro a s t ht
  exact ⟨fun r hr => exec_reg_eq ht (decide_eq_false hr), exec_fl_eq ht (by simp), exec_out_eq ht (by simp),
    exec_statusKeptOrFaulted ht (by simp), exec_memKeptBut ht⟩

/-- Settles O51: POP writes x[7] and the register that `a` names, and is no CMP, no PRN, no push and no HLT. -/
theorem frameOfPop : Obligations.FrameOfPop := by
  unfold Obligations.FrameOfPop
  intro a s t ht
  refine ⟨fun r hr => exec_reg_eq ht ?_, exec_fl_eq ht (by simp), exec_out_eq ht (by simp), exec_memKept ht (by simp),
    exec_statusKeptOrFaulted ht (by simp)⟩
  obtain ⟨ha, h7⟩ := not_or.mp hr
  simp [Instr.writesReg, names_eq_false ha, h7]

end Sys2Proof.Proofs.StackFamily
end

section
/-! SUPPORT. What the state that CALL leaves holds, and the answers of CALL, RET, JMP and the conditional branches
(43_subroutine_branch.md R110 to R114). -/

namespace Sys2Proof.Machine

variable {s : State}

/-! ### CALL -/

theorem exec_call_of_sp_zero (r : RegIdx) (hp : s.pc.toNat ≤ 253) (h0 : s.sp = 0#8) :
    exec (.call (regByte r)) s = .next (faultedWith s (.addressOutOfRange (-1))) := by
  rw [exec, execCall, withReg_regByte, withPcPlus_inside (by omega), withPushSlot_empty h0, raise_eq]

/-- The target of CALL is read after x[4] has the return address and x[7] is decremented (R110, D9). -/
theorem reg_called (r : RegIdx) :
    s.called.reg r = if r = 4 then s.pc + 2#8 else if r = 7 then s.sp - 1#8 else s.reg r := by
  rw [State.called, reg_pushReg, reg_setReg, reg_setReg]
  by_cases h4 : r = 4
  · subst h4
    rfl
  · simp [h4, Ne.symm h4, eq_comm (a := r)]

/-- The return address is at the top of the stack (R110). -/
theorem read_called_slot (h0 : s.sp ≠ 0#8) : s.called.mem.read (s.sp.toNat - 1) = s.pc + 2#8 := by
  rw [← toNat_sp_sub_one h0, State.called, read_pushReg_slot _ (by decide), reg_setReg_self]

theorem read_called_other (h0 : s.sp ≠ 0#8) {a : Nat} (ha : a ≠ s.sp.toNat - 1) :
    s.called.mem.read a = s.mem.read a := by
  rw [State.called, pushReg_mem, setReg_mem, Memory.read_write_other (by rwa [toNat_sp_sub_one h0])]

/-! ### RET -/

theorem popBase_link : s.popBase Config.linkIndex = s.sp := popBase_of_ne (by decide)

theorem reg_popped_link : (s.popped Config.linkIndex).reg Config.linkIndex = s.load s.sp :=
  (reg_setReg_of_ne _ _ _ _ (by decide)).trans (reg_setReg_self _ _ _)

theorem reg_popped_sp : (s.popped Config.linkIndex).reg Config.spIndex = s.sp + 1#8 := by
  rw [State.popped, reg_setReg_self, popBase_link]

theorem exec_ret_of_sp_full (h : s.sp = 255#8) : exec .ret s = .next (faultedWith s (.addressOutOfRange 256)) := by
  rw [exec, execRet, withPop_full (popBase_link.trans h), raise_eq]

/-- RET jumps to the byte at the top of the stack (R111). -/
theorem exec_ret_to_top (h : s.sp ≠ 255#8) :
    exec .ret s = .next ((s.popped Config.linkIndex).setPc (s.load s.sp)) := by
  rw [exec_ret (by rwa [popBase_link]), reg_popped_link]

/-! ### JMP, JEQ and JNE -/

theorem exec_jmp (r : RegIdx) : exec (.jmp (regByte r)) s = .next (s.setPc (s.reg r)) := withReg_regByte r _

theorem branchIf_taken (r : RegIdx) : branchIf true (regByte r) s = .next (s.setPc (s.reg r)) := withReg_regByte r _

theorem branchIf_not_taken (r : RegIdx) (hp : s.pc.toNat ≤ 253) :
    branchIf false (regByte r) s = .next (s.setPc (s.pc + 2#8)) := by
  rw [branchIf, withReg_regByte, if_neg (by decide), withPcPlus_inside (by omega)]

/-- JEQ is the branch on FL[0] (R113, D2). -/
theorem exec_jeq (a : Byte) : exec (.jeq a) s = branchIf (s.fl.getLsbD 0) a s := by
  rw [exec, execJeq, equalFlag_eq_getLsbD]

/-- JNE is the branch on FL[0] clear (R114, D2). -/
theorem exec_jne (a : Byte) : exec (.jne a) s = branchIf (!s.fl.getLsbD 0) a s := by
  rw [exec, execJne, equalFlag_eq_getLsbD]

end Sys2Proof.Machine
end

section
/-! The statements of 43_subroutine_branch.md. -/

namespace Sys2Proof.Proofs.SubroutineFamily

open Sys2Proof.Machine

/-- Settles O24: CALL leaves its return address at the top of the stack, and RET jumps to the byte it finds there. -/
theorem callReturnPair : Obligations.CallReturnPair := by
  unfold Obligations.CallReturnPair
  intro s u r hp (h0 : s.sp ≠ 0#8)
  refine ⟨⟨_, exec_call r hp h0, reg_called 7, read_called_slot h0⟩, fun hsp htop => ?_⟩
  have hu : u.sp = s.sp - 1#8 := hsp
  have hfull : u.sp ≠ 255#8 := by
    rw [hu]
    bv_omega
  have hload : u.load u.sp = s.pc + 2#8 := by rwa [State.load, hu, toNat_sp_sub_one h0]
  have hback : u.sp + 1#8 = s.sp := by rw [hu, BitVec.sub_add_cancel]
  exact ⟨_, exec_ret_to_top hfull, hload, reg_popped_sp.trans hback, reg_popped_link.trans hload⟩

/-- Settles O41: the operand check, then the check of SP, then the completed result, whose target is read last. -/
theorem callThroughLinkRegister : Obligations.CallThroughLinkRegister := by
  unfold Obligations.CallThroughLinkRegister
  exact ⟨fun _ => rfl, fun s a ha => withReg_illegal ha _, fun s r h0 hp => exec_call_of_sp_zero r hp h0,
    fun s r h0 hp => ⟨_, exec_call r hp h0, rfl, reg_called r, rfl, rfl, rfl, read_called_slot h0,
      fun a => read_called_other h0⟩⟩

/-- Settles O42: the check of SP, then the completed result. -/
theorem retPopsLinkRegister : Obligations.RetPopsLinkRegister := by
  unfold Obligations.RetPopsLinkRegister
  refine ⟨rfl, fun s => exec_ret_of_sp_full, fun s h => ?_⟩
  rw [exec_ret_to_top h, State.popped, popBase_link]
  rfl

/-- Settles O43: the operand check, then the completed result. -/
theorem jmpToRegister : Obligations.JmpToRegister := by
  unfold Obligations.JmpToRegister
  exact ⟨fun _ => rfl, fun s a ha => withReg_illegal ha _, fun s => exec_jmp⟩

/-- Settles O44: the operand check, then the branch on FL[0], taken and not. -/
theorem jeqWhereEqual : Obligations.JeqWhereEqual := by
  unfold Obligations.JeqWhereEqual
  refine ⟨fun _ => rfl, fun s a ha => withReg_illegal ha _, fun s r he => ?_, fun s r he hp => ?_⟩
  · rw [exec_jeq, he]
    exact branchIf_taken r
  · rw [exec_jeq, he]
    exact branchIf_not_taken r hp

/-- Settles O45: the operand check, then the branch on FL[0] clear, taken and not. -/
theorem jneWhereNotEqual : Obligations.JneWhereNotEqual := by
  unfold Obligations.JneWhereNotEqual
  refine ⟨fun _ => rfl, fun s a ha => withReg_illegal ha _, fun s r he => ?_, fun s r he hp => ?_⟩
  · rw [exec_jne, he]
    exact branchIf_taken r
  · rw [exec_jne, he]
    exact branchIf_not_taken r hp

/-- Settles O52: CALL writes x[4], x[7] and the slot below SP, and is no CMP, no PRN and no HLT. -/
theorem frameOfCall : Obligations.FrameOfCall := by
  unfold Obligations.FrameOfCall
  intro a s t ht
  exact ⟨fun r hr => exec_reg_eq ht (by simpa [Instr.writesReg] using hr), exec_fl_eq ht (by simp),
    exec_out_eq ht (by simp), exec_statusKeptOrFaulted ht (by simp), exec_memKeptBut ht⟩

/-- Settles O53: RET writes x[4] and x[7], and is no CMP, no PRN, no push and no HLT. -/
theorem frameOfReturn : Obligations.FrameOfReturn := by
  unfold Obligations.FrameOfReturn
  intro s t ht
  exact ⟨fun r hr => exec_reg_eq ht (by simpa [Instr.writesReg] using hr), exec_fl_eq ht (by simp),
    exec_out_eq ht (by simp), exec_memKept ht (by simp), exec_statusKeptOrFaulted ht (by simp)⟩

end Sys2Proof.Proofs.SubroutineFamily
end

section
/-! SUPPORT. The fault that a fetched instruction reports is the first of R135's list (60_exceptions.md R130 to R136):
each check of an instruction's meaning is one item of the list, met in the list's order. -/

namespace Sys2Proof.Machine

variable {s t u : State} {c : FaultCause} {f : Option FaultCause} {r : Answer} {i : Instr}

/-! ### Answers that report a given fault -/

/-- The answer is the fault `f`, or where `f` is none a next state that is not Faulted. -/
def Reports (s : State) (f : Option FaultCause) (r : Answer) : Prop :=
  (∃ c, f = some c ∧ r = .next (faultedWith s c)) ∨ (f = none ∧ ∃ t, r = .next t ∧ ∀ c, t.status ≠ .faulted c)

theorem reports_next (ht : ∀ c, t.status ≠ .faulted c) : Reports s none (.next t) := .inr ⟨rfl, t, rfl, ht⟩

/-- One check: a fault where `p` holds, before whatever the rest reports. -/
theorem reports_check {p : Prop} [Decidable p] (hfault : p → r = raise s c) (hpass : ¬ p → Reports s f r) :
    Reports s ((if p then some c else none).or f) r := by
  by_cases hp : p
  · rw [if_pos hp, hfault hp]
    exact .inl ⟨c, rfl, rfl⟩
  · rw [if_neg hp]
    exact hpass hp

theorem faultedWith_inj {c' : FaultCause} : faultedWith s c = faultedWith s c' ↔ c = c' :=
  ⟨fun h => Status.faulted.inj (congrArg State.status h), congrArg _⟩

theorem Reports.eq_next_iff (h : Reports s f r) : r = .next (faultedWith s c) ↔ f = some c := by
  rcases h with ⟨c', rfl, rfl⟩ | ⟨rfl, t, rfl, ht⟩
  · rw [Host.Outcome.next.injEq, faultedWith_inj, Option.some_inj]
  · constructor
    · rintro h
      cases h
      exact absurd rfl (ht c)
    · rintro ⟨⟩

/-! ### The items of R135 -/

/-- Items 3 and 4 of R135: an operand byte above 7. -/
def operandFault? (a : Byte) : Option FaultCause := if 7 < a.toNat then some (.registerOutOfRange a) else none

/-- The list of R135 as one chain of checks: the register operands in order, then items 5 and 6. -/
theorem firstFault?_eq (i : Instr) (s : State) :
    Instr.firstFault? i s = (Instr.regOperands i).foldr (fun a f => (operandFault? a).or f)
      ((Instr.ownFault? i s).or (Instr.fallThroughFault? i s)) := by
  simp only [Instr.firstFault?, Instr.badOperand?]
  induction Instr.regOperands i with
  | nil => exact Option.or_eq_orElse.symm
  | cons a as ih =>
    by_cases ha : 7 < a.toNat
    · simp [operandFault?, ha]
    · simpa [operandFault?, ha] using ih

theorem regByte_inj {q r : RegIdx} : regByte q = regByte r ↔ q = r := by
  revert q r; decide

theorem ownFault?_mod (a : Byte) (rb : RegIdx) :
    Instr.ownFault? (.mod a (regByte rb)) s = if s.reg rb = 0#8 then some (.divisionByZero s.pc) else none := by
  simp [Instr.ownFault?, regByte_inj]

/-- The value that POP increments decides its fault, POP R7 included (R101, D9). -/
theorem ownFault?_pop (r : RegIdx) :
    Instr.ownFault? (.pop (regByte r)) s = if s.popBase r = 255#8 then some (.addressOutOfRange 256) else none := by
  by_cases h7 : r = 7
  · subst h7
    rfl
  · rw [popBase_of_ne h7]
    exact if_neg (mt regByte_inj.mp h7)

theorem fallThroughFault?_of_length_ne (h : (encode i).length ≠ 3) : Instr.fallThroughFault? i s = none :=
  if_neg fun ⟨h3, _⟩ => h h3

/-! ### The shared operations -/

theorem reports_withReg {a : Byte} {k : RegIdx → Answer} (hk : ∀ r, a = regByte r → Reports s f (k r)) :
    Reports s ((operandFault? a).or f) (withReg s a k) := by
  refine reports_check (fun ha => withReg_illegal ha k) fun ha => ?_
  obtain ⟨r, rfl⟩ := regByte_of_le (not_lt.mp ha)
  rw [withReg_regByte]
  exact hk r rfl

theorem reports_withRegs {a b : Byte} {k : RegIdx → RegIdx → Answer}
    (hk : ∀ ra rb, b = regByte rb → Reports s f (k ra rb)) :
    Reports s ((operandFault? a).or ((operandFault? b).or f)) (withRegs s a b k) :=
  reports_withReg fun ra _ => reports_withReg (hk ra)

theorem reports_withPushSlot {k : Byte → Answer} (hk : Reports s f (k (s.sp - 1#8))) :
    Reports s ((if s.reg 7 = 0#8 then some (.addressOutOfRange (-1)) else none).or f) (withPushSlot s k) :=
  reports_check (fun h => withPushSlot_empty h k) fun h => by rwa [withPushSlot_inside h]

theorem reports_withPop {q : RegIdx} {k : State → Answer} (hk : Reports s f (k (s.popped q))) :
    Reports s ((if s.popBase q = 255#8 then some (.addressOutOfRange 256) else none).or f) (withPop s q k) :=
  reports_check (fun h => withPop_full h k) fun h => by rwa [withPop_inside h]

/-- From pc at most 253 the fall-through of an instruction leaves memory only where it is three bytes long at 253. -/
theorem reports_fallThrough (hp : s.pc.toNat ≤ 253) (i : Instr) (hu : ∀ c, u.status ≠ .faulted c) :
    Reports s (Instr.fallThroughFault? i s) (withPcPlus s (encode i).length fun next => .next (u.setPc next)) := by
  have hlen : (encode i).length ≤ 3 := by cases i <;> simp [encode]
  rw [← Option.or_none (o := Instr.fallThroughFault? i s)]
  refine reports_check (fun ⟨h3, h253⟩ => ?_) fun h => ?_
  · rw [h3]
    exact withPcPlus_three_at_253 h253 _
  · rw [withPcPlus_inside (by omega)]
    exact reports_next hu

/-! ### The instructions, from a Running state with pc at most 253 -/

section
variable (hs : s.status = .running) (hp : s.pc.toNat ≤ 253)
include hs

theorem not_faulted_of_status_eq (ht : t.status = s.status) (c : FaultCause) : t.status ≠ .faulted c := by
  simp [ht, hs]

theorem reports_execRet :
    Reports s ((Instr.ownFault? .ret s).or (Instr.fallThroughFault? .ret s)) (execRet s) := by
  rw [fallThroughFault?_of_length_ne (by simp [encode])]
  refine reports_check (fun h => withPop_full (popBase_link.trans h) _) fun h => ?_
  rw [execRet, withPop_inside (by rwa [popBase_link])]
  exact reports_next (not_faulted_of_status_eq hs rfl)

theorem reports_execJmp (a : Byte) :
    Reports s ((operandFault? a).or (Instr.fallThroughFault? (.jmp a) s)) (execJmp a s) := by
  rw [fallThroughFault?_of_length_ne (by simp [encode])]
  exact reports_withReg fun _ _ => reports_next (not_faulted_of_status_eq hs rfl)

include hp

/-- A completed effect that keeps STATUS, behind the fall-through check. -/
theorem reports_fallThrough_of_status_eq (i : Instr) (hu : u.status = s.status) :
    Reports s (Instr.fallThroughFault? i s) (withPcPlus s (encode i).length fun next => .next (u.setPc next)) :=
  reports_fallThrough hp i (not_faulted_of_status_eq hs hu)

theorem reports_aluRegReg (g : Byte → Byte → Byte) (a b : Byte) (hlen : (encode i).length = 3) :
    Reports s ((operandFault? a).or ((operandFault? b).or (Instr.fallThroughFault? i s))) (aluRegReg g a b s) := by
  rw [aluRegReg, ← hlen]
  exact reports_withRegs fun _ _ _ => reports_fallThrough_of_status_eq hs hp i rfl

theorem reports_branchIf (taken : Bool) (a : Byte) (hlen : (encode i).length = 2) :
    Reports s ((operandFault? a).or (Instr.fallThroughFault? i s)) (branchIf taken a s) := by
  rw [branchIf, ← hlen]
  refine reports_withReg fun r _ => ?_
  cases taken
  · exact reports_fallThrough_of_status_eq hs hp i rfl
  · rw [fallThroughFault?_of_length_ne (by omega)]
    exact reports_next (not_faulted_of_status_eq hs rfl)

theorem reports_execMod (a b : Byte) :
    Reports s ((operandFault? a).or ((operandFault? b).or
      ((Instr.ownFault? (.mod a b) s).or (Instr.fallThroughFault? (.mod a b) s)))) (execMod a b s) := by
  refine reports_withRegs fun ra rb hb => ?_
  subst hb
  rw [ownFault?_mod]
  refine reports_check (fun h0 => if_pos h0) fun h0 => ?_
  rw [if_neg h0]
  exact reports_fallThrough_of_status_eq hs hp (.mod a (regByte rb)) rfl

theorem reports_execPop (a : Byte) :
    Reports s ((operandFault? a).or ((Instr.ownFault? (.pop a) s).or (Instr.fallThroughFault? (.pop a) s)))
      (execPop a s) := by
  refine reports_withReg fun r ha => ?_
  subst ha
  rw [ownFault?_pop]
  exact reports_withPop (reports_fallThrough_of_status_eq hs hp (.pop (regByte r)) rfl)

theorem reports_execCall (a : Byte) :
    Reports s ((operandFault? a).or ((Instr.ownFault? (.call a) s).or (Instr.fallThroughFault? (.call a) s)))
      (execCall a s) := by
  refine reports_withReg fun r _ => ?_
  rw [withPcPlus_inside (by omega), fallThroughFault?_of_length_ne (by simp [encode])]
  exact reports_withPushSlot (reports_next (not_faulted_of_status_eq hs rfl))

/-- An instruction reports the first fault of R135's items 3 to 6, and with none it completes. -/
theorem reports_exec (i : Instr) : Reports s (Instr.firstFault? i s) (exec i s) := by
  rw [firstFault?_eq]
  cases i with
  | hlt => exact reports_fallThrough hp .hlt (u := s.setStatus .halted) (by simp)
  | ldi a imm => exact reports_withReg fun _ _ => reports_fallThrough_of_status_eq hs hp (.ldi a imm) rfl
  | prn a => exact reports_withReg fun _ _ => reports_fallThrough_of_status_eq hs hp (.prn a) rfl
  | add a b => exact reports_aluRegReg hs hp aluAdd a b rfl
  | mul a b => exact reports_aluRegReg hs hp aluMul a b rfl
  | mod a b => exact reports_execMod hs hp a b
  | and a b => exact reports_aluRegReg hs hp aluAnd a b rfl
  | or a b => exact reports_aluRegReg hs hp aluOr a b rfl
  | xor a b => exact reports_aluRegReg hs hp aluXor a b rfl
  | not a => exact reports_withReg fun _ _ => reports_fallThrough_of_status_eq hs hp (.not a) rfl
  | shl a b => exact reports_aluRegReg hs hp aluShl a b rfl
  | shr a b => exact reports_aluRegReg hs hp aluShr a b rfl
  | cmp a b => exact reports_withRegs fun _ _ _ => reports_fallThrough_of_status_eq hs hp (.cmp a b) rfl
  | push a =>
    exact reports_withReg fun _ _ => reports_withPushSlot (reports_fallThrough_of_status_eq hs hp (.push a) rfl)
  | pop a => exact reports_execPop hs hp a
  | call a => exact reports_execCall hs hp a
  | ret => exact reports_execRet hs
  | jmp a => exact reports_execJmp hs a
  | jeq a => exact reports_branchIf (i := .jeq a) hs hp _ a rfl
  | jne a => exact reports_branchIf (i := .jne a) hs hp _ a rfl

end

/-! ### The step -/

theorem step_of_not_opcode (hs : s.status = .running) (hp : s.pc.toNat ≤ 253) (ho : s.byteAtPc 0 ∉ opcodes) :
    step s = .next (faultedWith s (.unknownOpcode (s.byteAtPc 0))) := by
  rw [step, whenRunning_running hs, withInstr, withFetched_inside hp, decode_unknown ho, raise_eq]

theorem reports_step (hs : s.status = .running) (hi : s.Fetches i) : Reports s (Instr.firstFault? i s) (step s) := by
  rw [step_of_fetches hs hi]
  exact reports_exec hs hi.1 i

theorem step_faulted_ne_next (hs : s.status = .faulted c) (u : State) : step s ≠ .next u := by
  simp [step, whenRunning_faulted hs]

/-- Only a fault leaves a Faulted state, and it changes nothing but STATUS (R136). -/
theorem eq_faultedWith_of_step (h : step s = .next t) (ht : t.status = .faulted c) : t = faultedWith s c := by
  have hfault {c' : FaultCause} (e : t = faultedWith s c') : t = faultedWith s c := by
    subst e
    exact faultedWith_inj.mpr (Status.faulted.inj ht)
  obtain ⟨hs, ⟨i, -, hexec⟩ | ⟨-, hc⟩ | ⟨-, -, hc⟩⟩ := step_next h
  · rcases exec_cases hexec with ⟨c', hc⟩ | hc
    · exact hfault hc
    · rcases hc.status_eq with hst | ⟨-, -, rfl⟩
      · exact absurd ht (not_faulted_of_status_eq hs hst c)
      · cases ht
  · exact hfault hc
  · exact hfault hc

/-- Every fault of a step, by the place of R135's list that it comes from: the fetch, the dispatch, the instruction. -/
theorem step_faults_iff (hs : s.status = .running) :
    step s = .next (faultedWith s c) ↔
      (254 ≤ s.pc.toNat ∧ c = .addressOutOfRange 256) ∨
      (s.pc.toNat ≤ 253 ∧ s.byteAtPc 0 ∉ opcodes ∧ c = .unknownOpcode (s.byteAtPc 0)) ∨
      ∃ i, s.Fetches i ∧ Instr.firstFault? i s = some c := by
  constructor
  · intro h
    obtain ⟨-, ⟨i, hi, -⟩ | ⟨hp, hc⟩ | ⟨hp, hno, hc⟩⟩ := step_next h
    · exact .inr (.inr ⟨i, hi, (reports_step hs hi).eq_next_iff.mp h⟩)
    · exact .inl ⟨hp, faultedWith_inj.mp hc⟩
    · exact .inr (.inl ⟨hp, fun ho => not_exists.mpr hno ((fetches_iff_opcode hp).mpr ho), faultedWith_inj.mp hc⟩)
  · rintro (⟨hp, rfl⟩ | ⟨hp, ho, rfl⟩ | ⟨i, hi, hc⟩)
    · exact step_top hs hp
    · exact step_of_not_opcode hs hp ho
    · exact (reports_step hs hi).eq_next_iff.mpr hc

end Sys2Proof.Machine
end

section
/-! SUPPORT. Which instructions have which fault as their first one (60_exceptions.md R132 to R135). -/

namespace Sys2Proof.Machine

variable {s : State} {c : FaultCause} {i : Instr}

theorem firstFault?_eq_some_iff :
    Instr.firstFault? i s = some c ↔
      (∃ a, Instr.badOperand? i = some a ∧ c = .registerOutOfRange a) ∨
      (Instr.badOperand? i = none ∧ (Instr.ownFault? i s = some c ∨
        (Instr.ownFault? i s = none ∧ Instr.fallThroughFault? i s = some c))) := by
  unfold Instr.firstFault?
  cases Instr.badOperand? i with
  | some a => simp [eq_comm]
  | none => cases Instr.ownFault? i s <;> simp

/-- The list of R132 and R133 for item 5 of R135, instruction by instruction. -/
theorem ownFault?_eq_some_iff :
    Instr.ownFault? i s = some c ↔
      (c = .divisionByZero s.pc ∧ ∃ (a : Byte) (rb : RegIdx), i = .mod a (regByte rb) ∧ s.reg rb = 0#8) ∨
      (c = .addressOutOfRange (-1) ∧ s.reg 7 = 0#8 ∧ ∃ a, i = .push a ∨ i = .call a) ∨
      (c = .addressOutOfRange 256 ∧ s.reg 7 = 255#8 ∧ ((∃ a, i = .pop a ∧ a ≠ 7#8) ∨ i = .ret)) ∨
      (c = .addressOutOfRange 256 ∧ i = .pop 7#8 ∧ s.mem.read (s.reg 7).toNat = 255#8) := by
  cases i with
  | mod a b | push a | call a | ret => simp [Instr.ownFault?, and_comm, eq_comm]
  | pop a =>
    by_cases h7 : a = 7#8
    · simp [Instr.ownFault?, h7, and_comm, eq_comm]
    · simp [Instr.ownFault?, h7, and_comm, eq_comm]
  | _ => simp [Instr.ownFault?]

theorem fallThroughFault?_eq_some_iff :
    Instr.fallThroughFault? i s = some c ↔
      c = .addressOutOfRange 256 ∧ s.pc.toNat = 253 ∧ (encode i).length = 3 := by
  simp [Instr.fallThroughFault?, and_comm, eq_comm]

/-- Of the three-byte instructions only MOD by zero has a fault of its own. -/
theorem ownFault?_eq_none_iff_of_length_three (h3 : (encode i).length = 3) :
    Instr.ownFault? i s = none ↔ ¬ ∃ (a : Byte) (rb : RegIdx), i = .mod a (regByte rb) ∧ s.reg rb = 0#8 := by
  constructor
  · rintro hnone ⟨a, rb, rfl, h0⟩
    simp [ownFault?_mod, h0] at hnone
  · intro hmod
    refine Option.eq_none_iff_forall_ne_some.mpr fun c hc => ?_
    rcases ownFault?_eq_some_iff.mp hc with ⟨-, h⟩ | ⟨-, -, a, rfl | rfl⟩ | ⟨-, -, ⟨a, rfl, -⟩ | rfl⟩ | ⟨-, rfl, -⟩
    · exact hmod h
    all_goals cases h3

/-- A fall-through fault that no item 5 comes before. -/
theorem unpreempted_fallThroughFault?_iff :
    (Instr.ownFault? i s = none ∧ Instr.fallThroughFault? i s = some c) ↔
      c = .addressOutOfRange 256 ∧ s.pc.toNat = 253 ∧ (encode i).length = 3 ∧
        ¬ ∃ (a : Byte) (rb : RegIdx), i = .mod a (regByte rb) ∧ s.reg rb = 0#8 := by
  rw [fallThroughFault?_eq_some_iff]
  constructor
  · rintro ⟨hown, hc, hp, h3⟩
    exact ⟨hc, hp, h3, (ownFault?_eq_none_iff_of_length_three h3).mp hown⟩
  · rintro ⟨hc, hp, h3, hmod⟩
    exact ⟨(ownFault?_eq_none_iff_of_length_three h3).mpr hmod, hc, hp, h3⟩

/-! ### By cause -/

theorem firstFault?_registerOutOfRange_iff {v : Byte} :
    Instr.firstFault? i s = some (.registerOutOfRange v) ↔ Instr.badOperand? i = some v := by
  simp [firstFault?_eq_some_iff, ownFault?_eq_some_iff, fallThroughFault?_eq_some_iff]

theorem badOperand?_mod_eq_none_iff {a : Byte} {rb : RegIdx} :
    Instr.badOperand? (.mod a (regByte rb)) = none ↔ ∃ ra, a = regByte ra := by
  constructor
  · intro h
    have ⟨ha, _⟩ : a.toNat ≤ 7 ∧ (rb : Nat) ≤ 7 := by simpa [Instr.badOperand?, Instr.regOperands] using h
    exact regByte_of_le ha
  · rintro ⟨ra, rfl⟩
    simp [Instr.badOperand?, Instr.regOperands]

theorem firstFault?_divisionByZero_iff {p : Byte} :
    Instr.firstFault? i s = some (.divisionByZero p) ↔
      p = s.pc ∧ ∃ ra rb : RegIdx, i = .mod (regByte ra) (regByte rb) ∧ s.reg rb = 0#8 := by
  simp only [firstFault?_eq_some_iff, ownFault?_eq_some_iff, fallThroughFault?_eq_some_iff, reduceCtorEq, false_and,
    and_false, exists_false, or_false, false_or, FaultCause.divisionByZero.injEq]
  constructor
  · rintro ⟨hlegal, hp, a, rb, rfl, h0⟩
    obtain ⟨ra, rfl⟩ := badOperand?_mod_eq_none_iff.mp hlegal
    exact ⟨hp, ra, rb, rfl, h0⟩
  · rintro ⟨hp, ra, rb, rfl, h0⟩
    exact ⟨badOperand?_mod_eq_none_iff.mpr ⟨ra, rfl⟩, hp, regByte ra, rb, rfl, h0⟩

/-- R133's places inside an instruction: item 5 of R135 for the stack, and item 6 where MOD does not divide by zero. -/
theorem firstFault?_addressOutOfRange_iff {v : Int} :
    Instr.firstFault? i s = some (.addressOutOfRange v) ↔
      Instr.badOperand? i = none ∧
        ((v = -1 ∧ s.reg 7 = 0#8 ∧ ∃ a, i = .push a ∨ i = .call a) ∨
         (v = 256 ∧ s.reg 7 = 255#8 ∧ ((∃ a, i = .pop a ∧ a ≠ 7#8) ∨ i = .ret)) ∨
         (v = 256 ∧ i = .pop 7#8 ∧ s.mem.read (s.reg 7).toNat = 255#8) ∨
         (v = 256 ∧ s.pc.toNat = 253 ∧ (encode i).length = 3 ∧
           ¬ ∃ (a : Byte) (rb : RegIdx), i = .mod a (regByte rb) ∧ s.reg rb = 0#8)) := by
  simp only [firstFault?_eq_some_iff, unpreempted_fallThroughFault?_iff, ownFault?_eq_some_iff, reduceCtorEq, false_and,
    and_false, exists_false, false_or, FaultCause.addressOutOfRange.injEq, or_assoc]

end Sys2Proof.Machine
end

section
/-! The statements of 60_exceptions.md. -/

namespace Sys2Proof.Proofs.ExceptionsFamily

open Sys2Proof.Machine

/-- Settles O4: of the three places a fault comes from, only the dispatch raises UnknownOpcode. -/
theorem unknownOpcodeFaults : Obligations.UnknownOpcodeFaults := by
  unfold Obligations.UnknownOpcodeFaults
  refine ⟨fun s ir hs => (step_faults_iff hs).trans ?_, by decide, by decide, by decide⟩
  constructor
  · rintro (⟨-, ⟨⟩⟩ | ⟨hp, ho, ⟨⟩⟩ | ⟨i, -, hf⟩)
    · exact ⟨hp, rfl, ho⟩
    · simp [firstFault?_eq_some_iff, ownFault?_eq_some_iff, fallThroughFault?_eq_some_iff] at hf
  · rintro ⟨hp, rfl, ho⟩
    exact .inr (.inl ⟨hp, ho, rfl⟩)

/-- Settles O9: a completed instruction leaves no Faulted state, and the status gate stops the next step. -/
theorem faultIsPreciseAndTerminal : Obligations.FaultIsPreciseAndTerminal := by
  unfold Obligations.FaultIsPreciseAndTerminal
  intro s t c h ht
  exact ⟨eq_faultedWith_of_step h ht, step_faulted_ne_next ht⟩

/-- Settles O10: the fetch, the dispatch, then the checks of the fetched instruction. -/
theorem faultsInPriorityOrder : Obligations.FaultsInPriorityOrder := by
  unfold Obligations.FaultsInPriorityOrder
  intro s hs
  refine ⟨step_top hs, step_of_not_opcode hs, fun hp ho => ?_⟩
  obtain ⟨i, hi⟩ := (fetches_iff_opcode hp).mpr ho
  exact ⟨i, hi, reports_step hs hi⟩

/-- Settles O11: the fetch, item 5 of R135 for the stack, and item 6 where MOD by zero does not come first. -/
theorem addressFaultPlaces : Obligations.AddressFaultPlaces := by
  unfold Obligations.AddressFaultPlaces
  intro s v hs
  simp only [step_faults_iff hs, firstFault?_addressOutOfRange_iff, FaultCause.addressOutOfRange.injEq, reduceCtorEq,
    and_false, false_or]

/-- Settles O12: only the divisor check raises DivisionByZero. -/
theorem divisionByZeroPlaces : Obligations.DivisionByZeroPlaces := by
  unfold Obligations.DivisionByZeroPlaces
  intro s p hs
  simp only [step_faults_iff hs, firstFault?_divisionByZero_iff, reduceCtorEq, and_false, false_or]
  constructor
  · rintro ⟨i, hi, hp, ra, rb, rfl, h0⟩
    exact ⟨hp, ra, rb, hi, h0⟩
  · rintro ⟨hp, ra, rb, hi, h0⟩
    exact ⟨_, hi, hp, ra, rb, rfl, h0⟩

/-- Settles O13: only the operand checks raise RegisterOutOfRange. -/
theorem registerFaultPlaces : Obligations.RegisterFaultPlaces := by
  unfold Obligations.RegisterFaultPlaces
  intro s v hs
  simp only [step_faults_iff hs, firstFault?_registerOutOfRange_iff, reduceCtorEq, and_false, false_or]

end Sys2Proof.Proofs.ExceptionsFamily
end

section
/-! SUPPORT. The halting step, and runs under a step budget: one rule for each way a run begins, and the composition of
two budgets (70_reset_and_hazards.md R167, R168). -/

namespace Sys2Proof.Machine

variable {s t : State}

/-- A halting step is HLT's completed result (R70, D10). -/
theorem eq_halted_of_step_halts (h : step s = .next t) (ht : t.status = .halted) :
    t = (s.setStatus .halted).setPc (s.pc + 1#8) := by
  obtain ⟨hs, -⟩ := step_next h
  have hi := fetches_hlt_of_step_halts h ht
  have hp := hi.1
  rw [step_of_fetches hs hi, exec_hlt (by omega)] at h
  cases h
  rfl

theorem runFor_succ_of_step (h : step s = .next t) (n : Nat) : runFor (n + 1) s = runFor n t := by
  simp only [runFor, h]

theorem runFor_of_no_next (h : ∀ t, step s ≠ .next t) (n : Nat) : runFor n s = s := by
  cases n with
  | zero => rfl
  | succ n =>
    cases hstep : step s with
    | next t => exact absurd hstep (h t)
    | fault _ | refused _ => simp only [runFor, hstep]

/-- Only a Running state has a successor, so a run from any other stays where it is (R168). -/
theorem runFor_of_stopped (h : s.status ≠ .running) (n : Nat) : runFor n s = s := by
  refine runFor_of_no_next (fun t ht => h ?_) n
  obtain ⟨hs, -⟩ := step_next ht
  exact hs

/-- A budget of `n + m` steps is one of `n`, then one of `m` from where that run stands. -/
theorem runFor_add (n m : Nat) (s : State) : runFor (n + m) s = runFor m (runFor n s) := by
  induction n generalizing s with
  | zero => rw [Nat.zero_add, runFor]
  | succ n ih =>
    by_cases hnext : ∃ t, step s = .next t
    · obtain ⟨t, ht⟩ := hnext
      rw [Nat.succ_add, runFor_succ_of_step ht, runFor_succ_of_step ht, ih]
    · have hstuck : ∀ t, step s ≠ .next t := not_exists.mp hnext
      simp only [runFor_of_no_next hstuck]

/-- The verdict depends on the final state alone. -/
theorem runEnd_congr {n m : Nat} (h : runFor n s = runFor m s) : runEnd n s = runEnd m s := by
  rw [runEnd, runEnd, h]

end Sys2Proof.Machine
end

section
/-! The statements of 70_reset_and_hazards.md. -/

namespace Sys2Proof.Proofs.ResetAndHazardsFamily

open Sys2Proof.Machine

/-- Settles O7: the status gate stops both kinds of stopped state, and the step that halts ran the HLT it fetched. -/
theorem stoppedTakesNoStep : Obligations.StoppedTakesNoStep := by
  unfold Obligations.StoppedTakesNoStep
  refine ⟨fun s t hs => step_halted_ne_next hs t, fun s t c hs => step_faulted_ne_next hs t, fun s t h ht => ?_⟩
  have hi := fetches_hlt_of_step_halts h ht
  have hp := hi.1
  have hopcode : s.byteAtPc 0 = 0x01#8 := (Option.some.inj hi.head_encode).symm
  obtain rfl := eq_halted_of_step_halts h ht
  exact ⟨hopcode, rfl, toNat_pc_add (by omega)⟩

/-- Settles O22: the first `n` steps end in a state that is not Running, and the other `m` stay there. -/
theorem stoppedRunStaysStopped : Obligations.StoppedRunStaysStopped := by
  unfold Obligations.StoppedRunStaysStopped
  intro n m s hstop
  have hrun : runFor (n + m) s = runFor n s := by rw [runFor_add, runFor_of_stopped hstop]
  exact ⟨hrun, runEnd_congr hrun⟩

end Sys2Proof.Proofs.ResetAndHazardsFamily
end

section
/-! The statement of the host's rendering choice (notes/assumptions/16.md). -/

namespace Sys2Proof.Proofs.OtherFamily

open Sys2Proof.Machine

/-- A byte other than 0 is rendered with a first digit other than 0 (log 16). -/
theorem head_repr_ne_zero {v : Byte} (hv : v ≠ 0#8) : (Nat.repr v.toNat).toList.head? ≠ some '0' := by
  have hpos : 0 < v.toNat := Nat.pos_of_ne_zero fun h => hv (BitVec.eq_of_toNat_eq h)
  rw [Nat.toList_repr]
  exact head_toDigits_ne_zero hpos

/-- Settles O54: the line is the decimal numeral of the byte's value, whose digits begin with 0 only for the value 0. -/
theorem renderedNumeralsAreBare : Obligations.RenderedNumeralsAreBare := by
  unfold Obligations.RenderedNumeralsAreBare
  refine fun v => ⟨Nat.repr v.toNat, renderOut_append [] v, isNumeralOf_repr v, head_repr_ne_zero, ?_⟩
  rintro rfl
  decide

end Sys2Proof.Proofs.OtherFamily
end
